-- ==== Sys2Proof/Word.lean ====
section
/-! DEFINITION. The widths of the block: 32-bit registers (R11), 8-bit bytes (R31), 4-bit digits (R32),
pixels of three 8-bit channels (R33, R51), and the four line-presence flags (R24). -/

namespace Sys2Proof

/-- A register as the host sees it: `RW` = 32 bits (R6, R11). -/
abbrev Word := BitVec 32

/-- An element of the byte buffer BB (R31). -/
abbrev Byte := BitVec 8

/-- An element of the hex buffer HB: a value in [0, 15] by construction (R32). -/
abbrev Digit := BitVec 4

/-- A pixel: red, green and blue channel, in this order (R33, R35, R51). -/
structure Pixel where
  r : Byte
  g : Byte
  b : Byte
deriving DecidableEq, Repr

/-- The background colour (R5). -/
def Pixel.black : Pixel := ⟨0#8, 0#8, 0#8⟩

/-- The segment colour, every channel at `CHMAX` = 255 (R5). -/
def Pixel.white : Pixel := ⟨255#8, 255#8, 255#8⟩

/-- A bit quadruple `(b0, b1, b2, b3)` by the names of its flags (R24, glossary of 00_scope.md). -/
structure Quad where
  backslash  : Bool
  slash      : Bool
  vertical   : Bool
  horizontal : Bool
deriving DecidableEq, Repr

end Sys2Proof
end

