-- ==== Sys2Proof/Config.lean ====
section
/-! DEFINITION. What an implementation of the block fixes: the capacities of the three buffers, open
parameters of the spec (R6, 92_eei_decisions.md D4, 93_implementation_defined.md U8). `BUS_MAP` and
`RESET_MECHANISM` are open too, and no rule depends on them (R44, R130): they have no place here. -/

namespace Sys2Proof

/-- The capacities: `MAX_DIGITS`, `MAX_W`, `MAX_H` of R6. -/
structure Config where
  maxDigits : Nat
  maxW      : Nat
  maxH      : Nat
deriving DecidableEq, Repr

/-- `MAX_BYTES = MAX_DIGITS / 2` (R6). -/
def Config.maxBytes (c : Config) : Nat := c.maxDigits / 2

/-- The constraints R6 puts on the capacities: `MAX_DIGITS` even and at least 2, `MAX_W` and `MAX_H`
at least 1, all of them below `2^RW`. -/
abbrev Config.Legal (c : Config) : Prop :=
  c.maxDigits % 2 = 0 ∧ 2 ≤ c.maxDigits ∧ c.maxDigits < 2 ^ 32 ∧
    1 ≤ c.maxW ∧ c.maxW < 2 ^ 32 ∧ 1 ≤ c.maxH ∧ c.maxH < 2 ^ 32

/-- The instance 95_test_vectors.md uses for its vectors. DESIGN CHOICE (log entry 3, unsafe for a claim
about `State.reset` alone): the spec leaves the capacities open. -/
def Config.vectors : Config := ⟨64, 640, 64⟩

end Sys2Proof
end

