-- ==== Sys2Proof/Machine/State.lean ====
section
/-! DEFINITION. The state of the block (R10: sixteen registers and three buffers, nothing else), the host's
moves (R41), the error codes (R111), the reasons a step can stop, and the state after reset (R131). -/

namespace Sys2Proof.Machine

/-- A buffer as plain data: the elements that differ from what an unlisted index reads as, by rising
index. `Memory.wf` in Machine/Ops.lean states the form. -/
abbrev Buffer (α : Type) := List (Nat × α)

/-- The three address spaces of R30. `pb` is held by rows: the entry of index `y` is row `y`, itself a
buffer indexed by the column `x`; R33 gives PB no linear address, and how the rows are stored is seen by
no access (log entry 9). -/
structure Memory where
  /-- BB, the byte buffer (R31). -/
  bb : Buffer Byte
  /-- HB, the hex buffer (R32). -/
  hb : Buffer Digit
  /-- PB, the pixel buffer (R33), by rows. -/
  pb : Buffer (Buffer Pixel)
deriving DecidableEq, Repr

/-- No element written: every element reads as the value log entry 4 names. -/
def Memory.empty : Memory := ⟨[], [], []⟩

/-- The three bits STATUS holds (R13). Bits 31:3 read as zero and hold nothing. -/
structure Status where
  /-- Bit 0: an error is latched. -/
  err   : Bool
  /-- Bit 1: the last pairing dropped an odd last digit. -/
  odd   : Bool
  /-- Bit 2: the last layout was the one-cell layout of the empty input. -/
  empty : Bool
deriving DecidableEq, Repr

/-- The error codes of R111. `hexConv` is the source's `HexConversionError`, which no rule raises (R122). -/
inductive Error where
  | illCmd
  | cfg
  | cap
  | range
  | hexConv
deriving DecidableEq, Repr

/-- One action of the host: exactly the primitives of R41. Register numbers and indices are natural
numbers; one the block does not have is refused (U7). Values have the width R41 gives them. -/
inductive HostAction where
  | readReg    (n : Nat)
  | writeReg   (n : Nat) (v : Word)
  | readByte   (k : Nat)
  | writeByte  (k : Nat) (v : Byte)
  | readDigit  (k : Nat)
  | writeDigit (k : Nat) (v : Digit)
  | readPixel  (x y : Nat)
  | writePixel (x y : Nat) (p : Pixel)
deriving DecidableEq, Repr

/-- What a read of the host returns (R41). -/
inductive HostReply where
  | reg   (v : Word)
  | byte  (v : Byte)
  | digit (v : Digit)
  | pixel (p : Pixel)
deriving DecidableEq, Repr

/-- The state. CMD and THR hold no state (R12, R25) and have no field. -/
@[ext]
structure State where
  /-- The capacities: parameters, not state of the block (R28). They stand here as plain data, which no
  step changes, so that what is said of every state is said of every capacity (log entry 3). -/
  config  : Config
  /-- Register 1, STATUS (R13). -/
  status  : Status
  /-- Register 2, ERRCODE: 3 bits held (R15). -/
  errcode : BitVec 3
  /-- Register 3, CELL: the cell size in pixels (R16). -/
  cell    : Word
  /-- Register 4, LW: the line width in pixels (R17). -/
  lw      : Word
  /-- Register 5, BLEN: the number of valid bytes of BB (R18). -/
  blen    : Word
  /-- Register 6, HLEN: the number of valid digits of HB (R19). -/
  hlen    : Word
  /-- Register 7, IMW: the image's width in pixels (R20). -/
  imw     : Word
  /-- Register 8, IMH: the image's height in pixels (R20). -/
  imh     : Word
  /-- Register 9, COLS: the grid's columns (R21). -/
  cols    : Word
  /-- Register 10, ROWS: the grid's rows (R21). -/
  rows    : Word
  /-- Register 11, CCOL: the cell cursor's column (R22). -/
  ccol    : Word
  /-- Register 12, CROW: the cell cursor's row (R22). -/
  crow    : Word
  /-- Register 13, DIG: one hex digit, 4 bits held (R23). -/
  dig     : Digit
  /-- Register 14, QUAD: one bit quadruple, 4 bits held, backslash in bit 3 (R24). -/
  quad    : BitVec 4
  /-- The three buffers (R14). -/
  mem     : Memory
  /-- MODEL's own field (log entry 1): the host's actions still to come, the next one first. -/
  script  : List HostAction
  /-- MODEL's own field (log entry 2): what the host's reads have returned, the latest first. -/
  replies : List HostReply
deriving DecidableEq, Repr

/-- Why a step stops with a fault: never. Nothing in the spec stops the block: an error is latched and the
machine goes on (R110, R115), and every command ends (R38, R103). Nobody raises a fault, so the type has no
constructor (log entry 6); safe. -/
inductive Fault where
deriving DecidableEq, Repr

/-- Why a step is refused. -/
inductive Refusal where
  /-- Raised by `exec` alone, for an instruction without a meaning: none is left. Safe. -/
  | notModelled (mnemonic : String)
  /-- Raised by a host access to a register number 16 or above, which "has no meaning; a model refuses
  it" (R26, U7). Safe: the action is not a move of the machine. -/
  | noSuchRegister (n : Nat)
  /-- Raised by a host access to `BB[k]` with `k >= MAX_BYTES` (R37 d, U7). Safe. -/
  | noSuchByte (k : Nat)
  /-- Raised by a host access to `HB[k]` with `k >= MAX_DIGITS` (R37 d, U7). Safe. -/
  | noSuchDigit (k : Nat)
  /-- Raised by a host access to `PB[x, y]` with `x >= MAX_W` or `y >= MAX_H` (R37 d, U7). Safe. -/
  | noSuchPixel (x y : Nat)
deriving DecidableEq, Repr

/-- The state after a reset of a block with capacities `c` whose buffers hold `m` when reset ends: the
registers as R131 gives them. The buffers' contents are arguments, as U5 asks. -/
def State.resetWith (c : Config) (m : Memory) : State where
  config  := c
  status  := ⟨false, false, false⟩
  errcode := 0#3
  cell    := 20#32
  lw      := 2#32
  blen    := 0#32
  hlen    := 0#32
  imw     := 0#32
  imh     := 0#32
  cols    := 0#32
  rows    := 0#32
  ccol    := 0#32
  crow    := 0#32
  dig     := 0#4
  quad    := 0#4
  mem     := m
  script  := []
  replies := []

/-- The machine right after reset (R131). Every register has the value the spec states. The capacities
are those of 95_test_vectors.md and no buffer element is listed: DESIGN CHOICE, log entries 3 and 4. -/
def State.reset : State := State.resetWith Config.vectors Memory.empty

end Sys2Proof.Machine
end

