-- ==== Sys2Proof/Syntax.lean ====
section
/-! DEFINITION. The thirteen commands of the block, one constructor per row of spec/opcode_table.json (R47).
A command word carries no register field and no immediate (R45), so no constructor has an argument. -/

namespace Sys2Proof

/-- The commands of R47, in the order of their codes. -/
inductive Instr where
  | nop
  | d2b
  | b2d
  | b2h
  | h2b
  | layout
  | drawc
  | enc
  | grid
  | probec
  | dec
  | clr
  | srst
deriving DecidableEq, Repr

end Sys2Proof
end

