-- ==== Sys2Proof/WellFormed.lean ====
section
/-! DEFINITION. What is well formed: a command (always: it has no operand, R45), a command word (R45, R48),
a host action (R26, R41: a register number below 16, an index below its buffer's capacity). -/

namespace Sys2Proof

/-- Every command is well formed: it carries no operand that could be out of range (R45). -/
def Instr.wellFormed : Instr → Bool
  | .nop | .d2b | .b2d | .b2h | .h2b | .layout | .drawc | .enc | .grid | .probec | .dec | .clr | .srst => true

/-- A command word is legal: bits 31:4 are zero and the code is not one of the reserved 0xD, 0xE, 0xF
(R45, R48). -/
abbrev WellFormedWord (w : Word) : Prop :=
  w.extractLsb' 4 28 = 0#28 ∧ (w.extractLsb' 0 4).toNat < 13

/-- A host action has a meaning on a block with capacities `c` (R26, R41, U7). -/
abbrev Machine.HostAction.WellFormed (c : Config) : Machine.HostAction → Prop
  | .readReg n | .writeReg n _ => n < 16
  | .readByte k | .writeByte k _ => k < c.maxBytes
  | .readDigit k | .writeDigit k _ => k < c.maxDigits
  | .readPixel x y | .writePixel x y _ => x < c.maxW ∧ y < c.maxH

end Sys2Proof
end

