-- ==== Sys2Proof/Decode.lean ====
section
/-! DEFINITION. The command word (30_encoding.md): the decoder, total on all 2^32 words, and after it the
encoder. The block fetches nothing from memory (R43): a word reaches the decoder as the value of a host write
to CMD, whole, so no byte order comes into it. -/

namespace Sys2Proof

/-- Why a word is no command (R48). Either way the block raises `E_ILLCMD`. -/
inductive DecodeError where
  /-- One of the bits 31:4 is set. -/
  | highBitsSet
  /-- The code is one of the reserved 0xD, 0xE, 0xF. -/
  | reservedCode (op : BitVec 4)
deriving DecidableEq, Repr

/-- Field `op`, bits 3:0 of the word (R45). -/
def opField (w : Word) : BitVec 4 := w.extractLsb' 0 4

/-- Field `zero`, bits 31:4 of the word (R45). -/
def zeroField (w : Word) : BitVec 28 := w.extractLsb' 4 28

/-- The command of a code (R47); the codes 0xD, 0xE, 0xF name none. -/
def commandOfCode (op : BitVec 4) : Option Instr :=
  match op.toNat with
  | 0x0 => some .nop
  | 0x1 => some .d2b
  | 0x2 => some .b2d
  | 0x3 => some .b2h
  | 0x4 => some .h2b
  | 0x5 => some .layout
  | 0x6 => some .drawc
  | 0x7 => some .enc
  | 0x8 => some .grid
  | 0x9 => some .probec
  | 0xA => some .dec
  | 0xB => some .clr
  | 0xC => some .srst
  | _   => none

/-- The decoder (R45, R48). -/
def decode (w : Word) : Except DecodeError Instr :=
  if zeroField w ≠ 0#28 then .error .highBitsSet
  else
    match commandOfCode (opField w) with
    | some i => .ok i
    | none   => .error (.reservedCode (opField w))

/-- The command word of a command (R45, R47). -/
def encode : Instr → Word
  | .nop    => 0x00000000#32
  | .d2b    => 0x00000001#32
  | .b2d    => 0x00000002#32
  | .b2h    => 0x00000003#32
  | .h2b    => 0x00000004#32
  | .layout => 0x00000005#32
  | .drawc  => 0x00000006#32
  | .enc    => 0x00000007#32
  | .grid   => 0x00000008#32
  | .probec => 0x00000009#32
  | .dec    => 0x0000000A#32
  | .clr    => 0x0000000B#32
  | .srst   => 0x0000000C#32

/-- The command word whose low `nbits` bits are those of `w`, numbered as spec/opcode_table.json numbers
them, and whose other bits are zero. -/
def tableWord (nbits w : Nat) : Word := BitVec.ofNat 32 (w % 2 ^ nbits)

/-- What the decoder reads from a word given as spec/opcode_table.json gives its rows. -/
def decodeTableWord (nbits w : Nat) : Option Instr :=
  match decode (tableWord nbits w) with
  | .ok i    => some i
  | .error _ => none

end Sys2Proof
end

