-- ==== Sys2Proof/Machine/Ops.lean ====
section
/-! DEFINITION. The named operations: reading and writing one element of a buffer and runs of them, painting
a part of the pixel buffer, latching an error and releasing it, the registers' reset values, and the one
shape every command has (acceptance, checks, body). -/

namespace Sys2Proof.Machine

/-! ## One buffer -/

section Buffers
variable {α : Type}

/-- The element of index `k`; `d` is what an unlisted index reads as. -/
def bufRead (d : α) : Buffer α → Nat → α
  | [], _ => d
  | (j, v) :: m, k => if k = j then v else bufRead d m k

/-- The buffer without an entry for `k`. -/
def bufErase (m : Buffer α) (k : Nat) : Buffer α := m.filter fun e => e.1 != k

/-- The buffer with the entry `(k, v)` put in its place by rising index. -/
def bufInsert : Buffer α → Nat → α → Buffer α
  | [], k, v => [(k, v)]
  | (j, u) :: m, k, v => if k < j then (k, v) :: (j, u) :: m else (j, u) :: bufInsert m k v

/-- `B[k] <- v`. Writing what an unlisted index reads as removes the entry, which keeps one form. -/
def bufWrite [DecidableEq α] (d : α) (m : Buffer α) (k : Nat) (v : α) : Buffer α :=
  if v = d then bufErase m k else bufInsert (bufErase m k) k v

/-- The elements `B[0], ..., B[n-1]`, in this order: a buffer's valid part (R14). -/
def bufTake (d : α) (m : Buffer α) (n : Nat) : List α := (List.range n).map (bufRead d m)

/-- The `n` elements from index `k` on, each replaced by `f` of its offset and what it holds; every other
element stays. A loop `for i in 0 .. n-1: B[k+i] <- f i B[k+i]` does this: each of its iterations reads and
writes its own element only (log entry 11). -/
def bufUpdate [DecidableEq α] (d : α) (m : Buffer α) (k n : Nat) (f : Nat → α → α) : Buffer α :=
  m.filter (fun e => decide (e.1 < k)) ++
    (List.range n).filterMap (fun i =>
      if f i (bufRead d m (k + i)) = d then none else some (k + i, f i (bufRead d m (k + i)))) ++
    m.filter (fun e => decide (k + n ≤ e.1))

/-- `B[0] <- vs_0; B[1] <- vs_1; ...`, one write for each element of `vs`. -/
def bufPut [DecidableEq α] (d : α) (m : Buffer α) (vs : List α) : Buffer α :=
  bufUpdate d m 0 vs.length fun i _ => vs.getD i d

/-- One form for each content: indices strictly rising, no entry equal to what an unlisted index reads as. -/
abbrev bufWf (d : α) (m : Buffer α) : Prop :=
  m.Pairwise (fun a b => a.1 < b.1) ∧ ∀ e ∈ m, e.2 ≠ d

/-- Every listed index is below `n`. -/
abbrev bufBelow (n : Nat) (m : Buffer α) : Prop := ∀ e ∈ m, e.1 < n

end Buffers

/-! ## The three spaces -/

/-- What `BB[k]` reads as when nothing has written it. The spec leaves it unspecified (R29, U5);
DESIGN CHOICE, log entry 4. -/
def unwrittenByte : Byte := 0#8

/-- What `HB[k]` reads as when nothing has written it. DESIGN CHOICE, log entry 4. -/
def unwrittenDigit : Digit := 0#4

/-- What `PB[x, y]` reads as when nothing has written it. DESIGN CHOICE, log entry 4. -/
def unwrittenPixel : Pixel := ⟨0#8, 0#8, 0#8⟩

/-- `BB[k]` (R31). -/
def Memory.byteAt (m : Memory) (k : Nat) : Byte := bufRead unwrittenByte m.bb k

/-- `HB[k]` (R32). -/
def Memory.digitAt (m : Memory) (k : Nat) : Digit := bufRead unwrittenDigit m.hb k

/-- `PB[x, y]` (R33). -/
def Memory.pixelAt (m : Memory) (x y : Nat) : Pixel := bufRead unwrittenPixel (bufRead [] m.pb y) x

/-- `BB[k] <- v` (R31, R36). -/
def Memory.setByte (m : Memory) (k : Nat) (v : Byte) : Memory :=
  { m with bb := bufWrite unwrittenByte m.bb k v }

/-- `HB[k] <- v` (R32, R36). -/
def Memory.setDigit (m : Memory) (k : Nat) (v : Digit) : Memory :=
  { m with hb := bufWrite unwrittenDigit m.hb k v }

/-- `PB[x, y] <- p`, all three channels together (R33, R36). -/
def Memory.setPixel (m : Memory) (x y : Nat) (p : Pixel) : Memory :=
  { m with pb := bufWrite [] m.pb y (bufWrite unwrittenPixel (bufRead [] m.pb y) x p) }

/-- `BB[0 .. n-1]`. -/
def Memory.bytes (m : Memory) (n : Nat) : List Byte := bufTake unwrittenByte m.bb n

/-- `HB[0 .. n-1]`. -/
def Memory.digits (m : Memory) (n : Nat) : List Digit := bufTake unwrittenDigit m.hb n

/-- `BB[0] <- bs_0; BB[1] <- bs_1; ...`. -/
def Memory.putBytes (m : Memory) (bs : List Byte) : Memory :=
  { m with bb := bufPut unwrittenByte m.bb bs }

/-- `HB[0] <- hs_0; HB[1] <- hs_1; ...`. -/
def Memory.putDigits (m : Memory) (hs : List Digit) : Memory :=
  { m with hb := bufPut unwrittenDigit m.hb hs }

/-- In one row: `for u in 0 .. w-1: if on u: row[x0 + u] <- p`. -/
def paintRow (row : Buffer Pixel) (x0 w : Nat) (on : Nat → Bool) (p : Pixel) : Buffer Pixel :=
  bufUpdate unwrittenPixel row x0 w fun u old => if on u then p else old

/-- `for v in 0 .. h-1: for u in 0 .. w-1: if on u v: PB[x0 + u, v] <- p`: the loops of R73 and R76. -/
def Memory.paint (m : Memory) (x0 w h : Nat) (on : Nat → Nat → Bool) (p : Pixel) : Memory :=
  { m with pb := bufUpdate [] m.pb 0 h fun v row => paintRow row x0 w (fun u => on u v) p }

/-- The one canonical form of the three buffers: each by strictly rising index, without an entry (and, in
PB, without a row) that an unlisted index reads as. -/
abbrev Memory.wf (m : Memory) : Prop :=
  bufWf unwrittenByte m.bb ∧ bufWf unwrittenDigit m.hb ∧ bufWf [] m.pb ∧ ∀ row ∈ m.pb, bufWf unwrittenPixel row.2

/-- Every listed element has an index the block has (R31, R32, R33). -/
abbrev Memory.within (c : Config) (m : Memory) : Prop :=
  bufBelow c.maxBytes m.bb ∧ bufBelow c.maxDigits m.hb ∧
    bufBelow c.maxH m.pb ∧ ∀ row ∈ m.pb, bufBelow c.maxW row.2

/-! ## Errors -/

/-- The value ERRCODE holds for an error (R111). -/
def Error.code : Error → BitVec 3
  | .illCmd  => 1#3
  | .cfg     => 2#3
  | .cap     => 3#3
  | .range   => 4#3
  | .hexConv => 5#3

/-- `raise E(...)`: taking the error, the one operation every raise goes through (R115). It sets STATUS.ERR
and ERRCODE; ODD, EMPTY and everything else stay, nothing is saved, and control goes nowhere. -/
def State.raise (e : Error) (s : State) : State :=
  { s with status := { s.status with err := true }, errcode := e.code }

/-- The way out of the error state (R101, R119): STATUS and ERRCODE cleared, nothing restored, since
nothing else was changed. -/
def State.release (s : State) : State :=
  { s with status := ⟨false, false, false⟩, errcode := 0#3 }

/-- Registers 1 to 14 at their reset values (R102); the buffers keep their contents. -/
def State.resetRegisters (s : State) : State :=
  { s with
    status := ⟨false, false, false⟩, errcode := 0#3, cell := 20#32, lw := 2#32, blen := 0#32, hlen := 0#32,
    imw := 0#32, imh := 0#32, cols := 0#32, rows := 0#32, ccol := 0#32, crow := 0#32, dig := 0#4, quad := 0#4 }

/-! ## The shape of a command -/

/-- A step's answer. -/
abbrev Result := Host.Outcome State Fault Refusal

/-- The acceptance test every command but CLR and SRST begins with (R116): while an error is latched the
command is refused silently, and nothing changes. -/
def accept (run : State → Result) (s : State) : Result :=
  if s.status.err then .next s else run s

/-- A command: acceptance (R116), then all its checks, then its body (R114). A check that fails latches its
error and the body does not run, so a command that raises writes nothing but the latch. -/
def command (check : State → Option Error) (body : State → State) : State → Result :=
  accept fun s =>
    match check s with
    | some e => .next (s.raise e)
    | none   => .next (body s)

/-- A command that raises nothing of its own. -/
def noCheck (_ : State) : Option Error := none

/-- `f` done `n` times: a loop whose count is fixed before it starts (R103). -/
def repeatBody (f : State → State) : Nat → State → State
  | 0, s => s
  | n + 1, s => repeatBody f n (f s)

end Sys2Proof.Machine
end

