-- ==== Sys2Proof/Machine/Operands.lean ====
section
/-! DEFINITION. The operands of the commands: `x[NAME]` is `s.name.toNat`, the exact natural number
the rules compute with (R7). Here stand the constant threshold, the arithmetic R7 names, and the way back from a
natural number to a register. -/

namespace Sys2Proof.Machine

/-- `THRESH` = 200, wiring (R6, R25, R28). -/
def thresh : Nat := 200

/-- `ceil_div(a, b) = (a + b - 1) div b`, for `b >= 1` (R7). -/
abbrev ceilDiv (a b : Nat) : Nat := (a + b - 1) / b

/-- `abs(a - b)` of the integer difference of two naturals (R7). -/
def absDiff (a b : Nat) : Nat := (a - b) + (b - a)

/-- A computed natural as a register holds it. R7: every stored result fits, because every command checks
its capacities first and every capacity is below `2^32` (log entry 8). -/
def reg (n : Nat) : Word := BitVec.ofNat 32 n

/-- `cursor <- (c, r)` (R7, R22). -/
def State.setCursor (c r : Nat) (s : State) : State := { s with ccol := reg c, crow := reg r }

end Sys2Proof.Machine
end

