-- ==== Sys2Proof/Machine/Flags.lean ====
section
/-! DEFINITION. The flags of STATUS: their places in the register (R13) and the two diagnostics' values
(R27). ERR is written by `State.raise`, `State.release` and `State.resetRegisters` alone. -/

namespace Sys2Proof.Machine

/-- STATUS as a read returns it: bit 0 ERR, bit 1 ODD, bit 2 EMPTY, bits 31:3 zero (R13). -/
def Status.toWord (f : Status) : Word :=
  (BitVec.ofBool f.empty ++ BitVec.ofBool f.odd ++ BitVec.ofBool f.err).setWidth 32

/-- ODD at the pairing of `m` digits: 1 iff a last digit is dropped (R27, R68). -/
def oddFlag (m : Nat) : Bool := m % 2 == 1

/-- EMPTY at the layout of `m` digits: 1 iff there is none (R27, R73). -/
def emptyFlag (m : Nat) : Bool := m == 0

/-- `STATUS.ODD <- v`. -/
def State.setOdd (v : Bool) (s : State) : State := { s with status := { s.status with odd := v } }

/-- `STATUS.EMPTY <- v`. -/
def State.setEmpty (v : Bool) (s : State) : State := { s with status := { s.status with empty := v } }

end Sys2Proof.Machine
end

