-- ==== Sys2Proof/Machine/Control.lean ====
section
/-! DEFINITION. Housekeeping (44_control.md): NOP, CLR, SRST. -/

namespace Sys2Proof.Machine

/-- NOP's pseudocode: nothing (R100). -/
def nopBody (s : State) : State := s

/-- NOP, no operation (R100); like every command but CLR and SRST it is subject to the acceptance test. -/
def execNop (s : State) : Result := command noCheck nopBody s

/-- CLR, clear status (R101): accepted in every state. -/
def execClr (s : State) : Result := .next s.release

/-- SRST, soft reset (R102): accepted in every state. -/
def execSrst (s : State) : Result := .next s.resetRegisters

end Sys2Proof.Machine
end

