-- ==== Sys2Proof/Machine/Codec.lean ====
section
/-! DEFINITION. The cell codec (40_cell_codec.md): the two functions of R60 and R61 and the commands D2B and
B2D. -/

namespace Sys2Proof.Machine

/-- `digit_to_bits(d)`: the binary expansion, most significant first (R60). -/
def digitToBits (d : Digit) : Quad :=
  ⟨d.getLsbD 3, d.getLsbD 2, d.getLsbD 1, d.getLsbD 0⟩

/-- `bits_to_digit(b0, b1, b2, b3) = 8*b0 + 4*b1 + 2*b2 + b3` (R61). -/
def bitsToDigit (q : Quad) : Digit :=
  BitVec.ofNat 4 (8 * q.backslash.toNat + 4 * q.slash.toNat + 2 * q.vertical.toNat + q.horizontal.toNat)

/-- A quadruple as QUAD holds it: `{b0, b1, b2, b3}`, backslash in bit 3 (R24, R62). -/
def quadReg (q : Quad) : BitVec 4 :=
  BitVec.ofBool q.backslash ++ BitVec.ofBool q.slash ++ BitVec.ofBool q.vertical ++ BitVec.ofBool q.horizontal

/-- The quadruple QUAD holds: `(q[3], q[2], q[1], q[0])` (R24, R63). -/
def regQuad (q : BitVec 4) : Quad :=
  ⟨q.getLsbD 3, q.getLsbD 2, q.getLsbD 1, q.getLsbD 0⟩

/-- D2B's pseudocode (R62). -/
def d2bBody (s : State) : State := { s with quad := quadReg (digitToBits s.dig) }

/-- B2D's pseudocode (R63). -/
def b2dBody (s : State) : State := { s with dig := bitsToDigit (regQuad s.quad) }

/-- D2B, digit to bits (R62). -/
def execD2b (s : State) : Result := command noCheck d2bBody s

/-- B2D, bits to digit (R63). -/
def execB2d (s : State) : Result := command noCheck b2dBody s

end Sys2Proof.Machine
end

