-- ==== Sys2Proof/Machine/HexGlue.lean ====
section
/-! DEFINITION. Byte and hex-digit conversion (41_hex_glue.md): the functions `expand` and `pair` of R65 and
R66 and the commands B2H and H2B. -/

namespace Sys2Proof.Machine

/-- `hi(b) = b[7:4]` (R49). -/
def hiDigit (b : Byte) : Digit := b.extractLsb' 4 4

/-- `lo(b) = b[3:0]` (R49). -/
def loDigit (b : Byte) : Digit := b.extractLsb' 0 4

/-- The byte `{d1, d2} = 16 * d1 + d2` of two digits (R49). -/
def joinDigits (d1 d2 : Digit) : Byte := d1 ++ d2

/-- `expand(bs)`: two digits a byte, high nibble first (R65). -/
def expand : List Byte → List Digit
  | [] => []
  | b :: bs => hiDigit b :: loDigit b :: expand bs

/-- `pair(hs)`: one byte for two digits; an odd last digit takes part in none (R66). -/
def pair : List Digit → List Byte
  | d1 :: d2 :: hs => joinDigits d1 d2 :: pair hs
  | [_] => []
  | [] => []

/-- B2H's check (R67, R113). -/
def b2hCheck (s : State) : Option Error :=
  if s.config.maxBytes < s.blen.toNat then some .cap else none

/-- B2H's pseudocode after its check (R67). -/
def b2hBody (s : State) : State :=
  { s with mem := s.mem.putDigits (expand (s.mem.bytes s.blen.toNat)), hlen := reg (2 * s.blen.toNat) }

/-- H2B's check (R68, R113). -/
def h2bCheck (s : State) : Option Error :=
  if s.config.maxDigits < s.hlen.toNat then some .cap else none

/-- H2B's pseudocode after its check (R68). HB and HLEN stay as they are. -/
def h2bBody (s : State) : State :=
  { s with mem := s.mem.putBytes (pair (s.mem.digits s.hlen.toNat)), blen := reg (s.hlen.toNat / 2) }.setOdd
    (oddFlag s.hlen.toNat)

/-- B2H, bytes to hex digits (R67). -/
def execB2h (s : State) : Result := command b2hCheck b2hBody s

/-- H2B, hex digits to bytes (R68). -/
def execH2b (s : State) : Result := command h2bCheck h2bBody s

end Sys2Proof.Machine
end

