-- ==== Sys2Proof/Machine/Decoder.lean ====
section
/-! DEFINITION. The decoder (43_decoder.md): the probes (R88 to R90) and the commands GRID, PROBEC and DEC. -/

namespace Sys2Proof.Machine

/-! ## The probes -/

/-- `Lit(x, y)` (R88): inside the image, and the red channel strictly above the threshold. Outside the image
no pixel is read and the answer is false (R37 a). -/
def State.lit (s : State) (x y : Nat) : Bool :=
  decide (x < s.imw.toNat) && (decide (y < s.imh.toNat) && decide (thresh < (s.mem.pixelAt x y).r.toNat))

/-- `ProbeCell(c, r)` (R89, R90), with `h = N div 2`; only used with `N >= 1`. -/
def State.probeCell (s : State) (c r : Nat) : Quad where
  backslash  := s.lit (c * s.cell.toNat + 1) (r * s.cell.toNat + 1) &&
    s.lit (c * s.cell.toNat + s.cell.toNat - 1) (r * s.cell.toNat + s.cell.toNat - 1)
  slash      := s.lit (c * s.cell.toNat + s.cell.toNat - 1) (r * s.cell.toNat + 1) &&
    s.lit (c * s.cell.toNat + 1) (r * s.cell.toNat + s.cell.toNat - 1)
  vertical   := s.lit (c * s.cell.toNat + 1) (r * s.cell.toNat + s.cell.toNat / 2)
  horizontal := s.lit (c * s.cell.toNat + s.cell.toNat / 2) (r * s.cell.toNat + 1)

/-! ## GRID -/

/-- The grid's columns: a last column narrower than a cell still counts (R86). -/
abbrev State.gridCols (s : State) : Nat := ceilDiv s.imw.toNat s.cell.toNat

/-- The grid's rows (R86). -/
abbrev State.gridRows (s : State) : Nat := ceilDiv s.imh.toNat s.cell.toNat

/-- GRID's checks, in the order of R87. -/
def gridCheck (s : State) : Option Error :=
  if s.cell.toNat = 0 then some .cfg
  else if s.config.maxW < s.imw.toNat ∨ s.config.maxH < s.imh.toNat then some .cap
  else if s.config.maxDigits < s.gridCols * s.gridRows then some .cap
  else none

/-- GRID's pseudocode after its checks (R87). -/
def gridBody (s : State) : State :=
  { s with cols := reg s.gridCols, rows := reg s.gridRows, hlen := reg 0 }.setCursor 0 0

/-! ## PROBEC -/

/-- PROBEC's checks, in the order of R92. -/
def probecCheck (s : State) : Option Error :=
  if s.cell.toNat = 0 then some .cfg
  else if s.config.maxW < s.imw.toNat ∨ s.config.maxH < s.imh.toNat ∨ s.config.maxDigits ≤ s.hlen.toNat then some .cap
  else if s.cols.toNat ≤ s.ccol.toNat ∨ s.rows.toNat ≤ s.crow.toNat then some .range
  else none

/-- The quadruple PROBEC finds: the probes of the cell at the cursor. -/
def State.probedQuad (s : State) : Quad := s.probeCell s.ccol.toNat s.crow.toNat

/-- The cursor one cell on, in raster order (R22, R92). -/
def State.advance (s : State) : State :=
  if s.ccol.toNat + 1 < s.cols.toNat then s.setCursor (s.ccol.toNat + 1) s.crow.toNat else s.setCursor 0 (s.crow.toNat + 1)

/-- PROBEC's pseudocode after its checks (R92): the digit is appended at index HLEN. -/
def probecBody (s : State) : State :=
  { s with
    quad := quadReg s.probedQuad, dig := bitsToDigit s.probedQuad,
    mem := s.mem.setDigit s.hlen.toNat (bitsToDigit s.probedQuad), hlen := reg (s.hlen.toNat + 1) }.advance

/-! ## DEC -/

/-- DEC's pseudocode after GRID's checks: GRID's body, PROBEC's body for every cell of the grid in raster
order, H2B's body (R93). The cursor PROBEC's body moves runs through the same `(c, r)` as the rule's two
loops (log entry 10). -/
def decBody (s : State) : State :=
  h2bBody (repeatBody probecBody (s.gridCols * s.gridRows) (gridBody s))

/-! ## The commands -/

/-- GRID, compute the grid and start a scan (R87). -/
def execGrid (s : State) : Result := command gridCheck gridBody s

/-- PROBEC, probe the cell at the cursor (R92). -/
def execProbec (s : State) : Result := command probecCheck probecBody s

/-- DEC, decode the image into the byte buffer: its checks are GRID's (R93). -/
def execDec (s : State) : Result := command gridCheck decBody s

end Sys2Proof.Machine
end

