-- ==== Sys2Proof/Machine/Encoder.lean ====
section
/-! DEFINITION. The encoder (42_encoder.md): the rasterizer's cover predicates (R75), `DrawCell` (R76) and
the commands LAYOUT, DRAWC and ENC. -/

namespace Sys2Proof.Machine

/-! ## The rasterizer -/

/-- `(u, v)` is a pixel of a cell of size `n` (R75). -/
def inCell (n u v : Nat) : Bool := decide (u < n) && decide (v < n)

/-- The backslash covers `(u, v)`: `abs(u - v) <= W - 1` (R75). -/
def coverBackslash (n w u v : Nat) : Bool := inCell n u v && decide (absDiff u v ≤ w - 1)

/-- The slash covers `(u, v)`: `abs(u + v - N) <= W - 1` (R75). -/
def coverSlash (n w u v : Nat) : Bool := inCell n u v && decide (absDiff (u + v) n ≤ w - 1)

/-- The vertical covers `(u, v)`: `u <= W - 1` (R75). -/
def coverVertical (n w u v : Nat) : Bool := inCell n u v && decide (u ≤ w - 1)

/-- The horizontal covers `(u, v)`: `v <= W - 1` (R75). -/
def coverHorizontal (n w u v : Nat) : Bool := inCell n u v && decide (v ≤ w - 1)

/-- `(u, v)` is covered by a segment whose flag is set: `lit` of R76. -/
def covered (q : Quad) (n w u v : Nat) : Bool :=
  (q.backslash && coverBackslash n w u v) || (q.slash && coverSlash n w u v) ||
    (q.vertical && coverVertical n w u v) || (q.horizontal && coverHorizontal n w u v)

/-- `DrawCell(c, d)` (R76): the covered pixels of cell column `c` that lie inside the image turn white, all
others stay. -/
def drawCell (c : Nat) (d : Digit) (s : State) : Memory :=
  s.mem.paint (c * s.cell.toNat) s.cell.toNat s.cell.toNat
    (fun u v => covered (digitToBits d) s.cell.toNat s.lw.toNat u v &&
      (decide (c * s.cell.toNat + u < s.imw.toNat) && decide (v < s.imh.toNat)))
    Pixel.white

/-! ## LAYOUT -/

/-- LAYOUT's checks, in the order of R73; `max 1 m` columns, one for the empty input (R71, R72). -/
def layoutCheck (s : State) : Option Error :=
  if s.cell.toNat = 0 then some .cfg
  else if s.config.maxDigits < s.hlen.toNat then some .cap
  else if s.config.maxW < max 1 s.hlen.toNat * s.cell.toNat ∨ s.config.maxH < s.cell.toNat then some .cap
  else none

/-- LAYOUT's pseudocode after its checks (R73). -/
def layoutBody (s : State) : State :=
  ({ s with
      cols := reg (max 1 s.hlen.toNat), rows := reg 1,
      imw := reg (max 1 s.hlen.toNat * s.cell.toNat), imh := reg s.cell.toNat,
      mem := s.mem.paint 0 (max 1 s.hlen.toNat * s.cell.toNat) s.cell.toNat (fun _ _ => true) Pixel.black }
    |>.setCursor 0 0).setEmpty (emptyFlag s.hlen.toNat)

/-! ## DRAWC -/

/-- DRAWC's checks, in the order of R77. -/
def drawcCheck (s : State) : Option Error :=
  if s.cell.toNat = 0 ∨ s.lw.toNat = 0 then some .cfg
  else if s.config.maxDigits < s.hlen.toNat ∨ s.config.maxW < s.imw.toNat ∨ s.config.maxH < s.imh.toNat then some .cap
  else if s.hlen.toNat ≤ s.ccol.toNat then some .range
  else none

/-- DRAWC's pseudocode after its checks (R77). -/
def drawcBody (s : State) : State :=
  { s with
    dig := s.mem.digitAt s.ccol.toNat, quad := quadReg (digitToBits (s.mem.digitAt s.ccol.toNat)),
    mem := drawCell s.ccol.toNat (s.mem.digitAt s.ccol.toNat) s, ccol := reg (s.ccol.toNat + 1) }

/-! ## ENC -/

/-- ENC's checks, in the order of R78. -/
def encCheck (s : State) : Option Error :=
  if s.cell.toNat = 0 ∨ s.lw.toNat = 0 then some .cfg
  else if s.config.maxBytes < s.blen.toNat then some .cap
  else if s.config.maxW < max 1 (2 * s.blen.toNat) * s.cell.toNat ∨ s.config.maxH < s.cell.toNat then some .cap
  else none

/-- ENC's pseudocode after its checks: B2H's body, LAYOUT's body, then DRAWC's body for every digit (R78). -/
def encBody (s : State) : State :=
  repeatBody drawcBody (2 * s.blen.toNat) (layoutBody (b2hBody s))

/-! ## The commands -/

/-- LAYOUT, size the image and paint it black (R73). -/
def execLayout (s : State) : Result := command layoutCheck layoutBody s

/-- DRAWC, draw the cell at the cursor (R77). -/
def execDrawc (s : State) : Result := command drawcCheck drawcBody s

/-- ENC, encode the byte buffer into an image (R78). -/
def execEnc (s : State) : Result := command encCheck encBody s

end Sys2Proof.Machine
end

