-- ==== Sys2Proof/Machine/Dispatch.lean ====
section
/-! DEFINITION. One arm per command: the meaning of each (R47). -/

namespace Sys2Proof.Machine

/-- The meaning of a command in a state. -/
def exec (i : Instr) (s : State) : Host.Outcome State Fault Refusal :=
  match i with
  | .nop => Sys2Proof.Machine.execNop s
  | .d2b => Sys2Proof.Machine.execD2b s
  | .b2d => Sys2Proof.Machine.execB2d s
  | .b2h => Sys2Proof.Machine.execB2h s
  | .h2b => Sys2Proof.Machine.execH2b s
  | .layout => Sys2Proof.Machine.execLayout s
  | .drawc => Sys2Proof.Machine.execDrawc s
  | .enc => Sys2Proof.Machine.execEnc s
  | .grid => Sys2Proof.Machine.execGrid s
  | .probec => Sys2Proof.Machine.execProbec s
  | .dec => Sys2Proof.Machine.execDec s
  | .clr => Sys2Proof.Machine.execClr s
  | .srst => Sys2Proof.Machine.execSrst s

end Sys2Proof.Machine
end

