-- ==== Sys2Proof/Machine/HostAccess.lean ====
section
/-! DEFINITION. The host's moves (R26, R41): register and buffer accesses and the write to CMD that starts a
command (R12, R116). Each is one transition, allowed in every state (R26, R41). -/

namespace Sys2Proof.Machine

/-! ## Registers -/

/-- `HostReadReg(n)`: the register's row of R11, zero-extended to 32 bits; nothing for a number 16 or above
(R26). -/
def State.readReg (s : State) (n : Nat) : Option Word :=
  match n with
  | 0  => some 0#32
  | 1  => some s.status.toWord
  | 2  => some (s.errcode.setWidth 32)
  | 3  => some s.cell
  | 4  => some s.lw
  | 5  => some s.blen
  | 6  => some s.hlen
  | 7  => some s.imw
  | 8  => some s.imh
  | 9  => some s.cols
  | 10 => some s.rows
  | 11 => some s.ccol
  | 12 => some s.crow
  | 13 => some (s.dig.setWidth 32)
  | 14 => some (s.quad.setWidth 32)
  | 15 => some (reg thresh)
  | _  => none

/-- A host write of `w` to CMD (R12, R116): CLR and SRST always run; with an error latched nothing else does
anything; an illegal word raises `E_ILLCMD`; any other word runs its command. The first two points are the
acceptance test each meaning begins with. -/
def State.writeCmd (s : State) (w : Word) : Result :=
  match decode w with
  | .ok i    => exec i s
  | .error _ => accept (fun s => .next (s.raise .illCmd)) s

/-- `HostWriteReg(n, v)` (R26): a read-only register stays as it is and nothing is raised; DIG and QUAD keep
the low 4 bits; a number 16 or above is refused. -/
def State.writeReg (s : State) (n : Nat) (v : Word) : Result :=
  match n with
  | 0  => s.writeCmd v
  | 1  => .next s
  | 2  => .next s
  | 3  => .next { s with cell := v }
  | 4  => .next { s with lw := v }
  | 5  => .next { s with blen := v }
  | 6  => .next { s with hlen := v }
  | 7  => .next { s with imw := v }
  | 8  => .next { s with imh := v }
  | 9  => .next s
  | 10 => .next s
  | 11 => .next { s with ccol := v }
  | 12 => .next { s with crow := v }
  | 13 => .next { s with dig := v.extractLsb' 0 4 }
  | 14 => .next { s with quad := v.extractLsb' 0 4 }
  | 15 => .next s
  | n  => .refused (.noSuchRegister n)

/-! ## One action, one step -/

/-- The host has read `r` (log entry 2). The block itself does not change (R36). -/
def State.reply (r : HostReply) (s : State) : State := { s with replies := r :: s.replies }

/-- One action of the host (R41). -/
def hostAct (a : HostAction) (s : State) : Result :=
  match a with
  | .readReg n =>
    match s.readReg n with
    | some v => .next (s.reply (.reg v))
    | none   => .refused (.noSuchRegister n)
  | .writeReg n v => s.writeReg n v
  | .readByte k =>
    if k < s.config.maxBytes then .next (s.reply (.byte (s.mem.byteAt k))) else .refused (.noSuchByte k)
  | .writeByte k v =>
    if k < s.config.maxBytes then .next { s with mem := s.mem.setByte k v } else .refused (.noSuchByte k)
  | .readDigit k =>
    if k < s.config.maxDigits then .next (s.reply (.digit (s.mem.digitAt k))) else .refused (.noSuchDigit k)
  | .writeDigit k v =>
    if k < s.config.maxDigits then .next { s with mem := s.mem.setDigit k v } else .refused (.noSuchDigit k)
  | .readPixel x y =>
    if x < s.config.maxW ∧ y < s.config.maxH then .next (s.reply (.pixel (s.mem.pixelAt x y)))
    else .refused (.noSuchPixel x y)
  | .writePixel x y p =>
    if x < s.config.maxW ∧ y < s.config.maxH then .next { s with mem := s.mem.setPixel x y p }
    else .refused (.noSuchPixel x y)

/-- The next action of the script is taken and done. With none left the block is idle: it does nothing until
the host acts (R44, R131, R141). -/
def nextAction (s : State) : Result :=
  match s.script with
  | [] => .next s
  | a :: rest => hostAct a { s with script := rest }

end Sys2Proof.Machine
end

