-- ==== Sys2Proof/Machine/Step.lean ====
section
/-! DEFINITION. One step of the machine: one action of the host (R38, R41). The block fetches no instructions
(R43): a command reaches it as the host's write to CMD, and that is where `withFetchWord` puts a word. -/

namespace Sys2Proof.Machine

/-- One transition (R38). -/
def step (s : State) : Host.Outcome State Fault Refusal := Sys2Proof.Machine.nextAction s

/-- `s` with the host about to write the word to CMD, before what the script holds already (log entry 7). -/
def State.withFetchWord (s : State) (nbits w : Nat) : State :=
  { s with script := .writeReg 0 (tableWord nbits w) :: s.script }

end Sys2Proof.Machine
end

