-- ==== Sys2Proof/Safety.lean ====
section
/-! DEFINITION. The terms claims are stated in: the invariant of the machine, the error conditions of R113 as
the table gives them, the picture of a digit (R80), and the decode-of-encode function (R94, R95). None of them
is used by the machine; each is written from its rule beside the machine's own definitions, not over them. -/

namespace Sys2Proof.Machine

/-! ## The invariant -/

/-- ERRCODE is 0 when no error is latched (R15), and one of the codes 1 to 4 when one is: 5 is never raised,
6 and 7 are never held (R111, R122). -/
abbrev State.LatchOk (s : State) : Prop :=
  (s.status.err = false → s.errcode = 0#3) ∧
    (s.status.err = true → 1 ≤ s.errcode.toNat ∧ s.errcode.toNat ≤ 4)

/-- The invariant every step keeps: legal capacities (R6), the buffers in their canonical form and without an
element the block does not have, the error latch as R15 and R111 say, and a grid that fits HB (COLS and ROWS
are read-only to the host, R21, and LAYOUT and GRID check before they write them). -/
abbrev State.Inv (s : State) : Prop :=
  s.config.Legal ∧ s.mem.wf ∧ s.mem.within s.config ∧ s.LatchOk ∧
    s.cols.toNat * s.rows.toNat ≤ s.config.maxDigits

/-- The word makes the block run CLR or SRST, the two ways out of the error state (R116, R119). -/
abbrev IsReleaseWord (w : Word) : Prop := w = 0x0000000B#32 ∨ w = 0x0000000C#32

/-- `n` steps, stopping at the first that answers no next state: a run of R141 with `n` host actions. -/
def runSteps : Nat → State → Result
  | 0, s => .next s
  | n + 1, s =>
    match step s with
    | .next t    => runSteps n t
    | .fault r   => .fault r
    | .refused r => .refused r

/-! ## The error conditions, as the table of R113 has them -/

/-- R113, column "`E_CFG` when". -/
def CfgWhen (i : Instr) (s : State) : Prop :=
  match i with
  | .nop | .d2b | .b2d | .clr | .srst | .b2h | .h2b => False
  | .layout | .grid | .probec | .dec => s.cell = 0#32
  | .drawc | .enc => s.cell = 0#32 ∨ s.lw = 0#32

/-- `ceil_div(a, b) = (a + b - 1) div b` (R7). -/
def ceilingOf (a b : Nat) : Nat := (a + b - 1) / b

/-- R113, column "`E_CAP` when". -/
def CapWhen (i : Instr) (s : State) : Prop :=
  match i with
  | .nop | .d2b | .b2d | .clr | .srst => False
  | .b2h => s.config.maxBytes < s.blen.toNat
  | .h2b => s.config.maxDigits < s.hlen.toNat
  | .layout => s.config.maxDigits < s.hlen.toNat ∨ s.config.maxW < max 1 s.hlen.toNat * s.cell.toNat ∨
      s.config.maxH < s.cell.toNat
  | .drawc => s.config.maxDigits < s.hlen.toNat ∨ s.config.maxW < s.imw.toNat ∨ s.config.maxH < s.imh.toNat
  | .enc => s.config.maxBytes < s.blen.toNat ∨ s.config.maxW < max 1 (2 * s.blen.toNat) * s.cell.toNat ∨
      s.config.maxH < s.cell.toNat
  | .grid | .dec => s.config.maxW < s.imw.toNat ∨ s.config.maxH < s.imh.toNat ∨
      s.config.maxDigits < ceilingOf s.imw.toNat s.cell.toNat * ceilingOf s.imh.toNat s.cell.toNat
  | .probec => s.config.maxW < s.imw.toNat ∨ s.config.maxH < s.imh.toNat ∨ s.config.maxDigits ≤ s.hlen.toNat

/-- R113, column "`E_RANGE` when". -/
def RangeWhen (i : Instr) (s : State) : Prop :=
  match i with
  | .nop | .d2b | .b2d | .clr | .srst | .b2h | .h2b | .layout | .enc | .grid | .dec => False
  | .drawc => s.hlen.toNat ≤ s.ccol.toNat
  | .probec => s.cols.toNat ≤ s.ccol.toNat ∨ s.rows.toNat ≤ s.crow.toNat

/-- No column of R113 applies: the command would not raise. -/
abbrev Clean (i : Instr) (s : State) : Prop := ¬CfgWhen i s ∧ ¬CapWhen i s ∧ ¬RangeWhen i s

/-- The state the latch leaves (R115): STATUS.ERR and ERRCODE, nothing else. -/
def latched (code : BitVec 3) (s : State) : State :=
  { s with status := { s.status with err := true }, errcode := code }

/-! ## Pictures and probes -/

/-- Pixel `(u, v)` of the picture of digit `d` is white (R80), at cell size `n` and line width `w`. -/
abbrev GlyphWhite (d : Digit) (n w u v : Nat) : Prop :=
  (d.getLsbD 3 = true ∧ ((u : Int) - (v : Int)).natAbs ≤ w - 1) ∨
    (d.getLsbD 2 = true ∧ ((u : Int) + (v : Int) - (n : Int)).natAbs ≤ w - 1) ∨
    (d.getLsbD 1 = true ∧ u ≤ w - 1) ∨ (d.getLsbD 0 = true ∧ v ≤ w - 1)

/-- A pixel with its red channel strictly above 200, inside the image (R88). -/
abbrev IsLit (s : State) (x y : Nat) : Prop :=
  x < s.imw.toNat ∧ y < s.imh.toNat ∧ 200 < (s.mem.pixelAt x y).r.toNat

/-- The digit whose four bits the six probes of cell `(c, r)` give (R89, R90): bit 3 backslash, bit 2 slash,
bit 1 vertical, bit 0 horizontal, with `n` the cell size and `h = n div 2`. -/
def ProbesTo (s : State) (c r : Nat) (d : Digit) : Prop :=
  (d.getLsbD 3 = true ↔ IsLit s (c * s.cell.toNat + 1) (r * s.cell.toNat + 1) ∧
      IsLit s (c * s.cell.toNat + s.cell.toNat - 1) (r * s.cell.toNat + s.cell.toNat - 1)) ∧
    (d.getLsbD 2 = true ↔ IsLit s (c * s.cell.toNat + s.cell.toNat - 1) (r * s.cell.toNat + 1) ∧
      IsLit s (c * s.cell.toNat + 1) (r * s.cell.toNat + s.cell.toNat - 1)) ∧
    (d.getLsbD 1 = true ↔ IsLit s (c * s.cell.toNat + 1) (r * s.cell.toNat + s.cell.toNat / 2)) ∧
    (d.getLsbD 0 = true ↔ IsLit s (c * s.cell.toNat + s.cell.toNat / 2) (r * s.cell.toNat + 1))

/-- The flags probed in a cell drawn for the flags `q` (R94), for cell size `n >= 2` and line width
`w >= 1`; the six conditions keep the rule's names. -/
def probedFlags (n w : Nat) (q : Quad) : Quad :=
  let e := decide (2 ≤ w)
  let a := decide (n ≤ w + 1)
  let f := decide (n ≤ w)
  let g := decide (n / 2 ≤ w)
  let k := decide (n - n / 2 ≤ w)
  let j := decide (n / 2 ≤ w - 1)
  let B := q.backslash
  let S := q.slash
  let V := q.vertical
  let H := q.horizontal
  { backslash  := (B || (S && a) || ((V || H) && e)) && (B || (S && a) || ((V || H) && f))
    slash      := (S || (B && a) || (V && f) || (H && e)) && (S || (B && a) || (V && e) || (H && f))
    vertical   := (B && g) || (S && k) || (V && e) || (H && j)
    horizontal := (B && g) || (S && k) || (V && j) || (H && e) }

/-- The flags of a digit (R50). -/
def flagsOf (d : Digit) : Quad := ⟨d.getLsbD 3, d.getLsbD 2, d.getLsbD 1, d.getLsbD 0⟩

/-- The regular regime (R95). -/
abbrev RegularRegime (n w : Nat) : Prop := 2 ≤ w ∧ 2 * w + 2 ≤ n

/-- `T(d)` of R95: the digit decoded from a cell drawn for `d` in the regular regime. -/
def survivor (d : Digit) : Digit := if d = 0x3#4 then 0x7#4 else if d = 0xB#4 then 0xF#4 else d

/-- The nibble is one of the two that do not survive (R96, R142). -/
abbrev Lost (d : Digit) : Prop := d = 0x3#4 ∨ d = 0xB#4

/-! ## The pseudocode's loops, one write at a time -/

/-- `for v in 0 .. h-1: for u in 0 .. w-1: if on u v: PB[x0+u, v] <- p`, pixel by pixel. -/
def paintLoop (m : Memory) (x0 w h : Nat) (on : Nat → Nat → Bool) (p : Pixel) : Memory :=
  (List.range h).foldl
    (fun m v => (List.range w).foldl (fun m u => if on u v then m.setPixel (x0 + u) v p else m) m) m

/-- `for k in 0 .. n-1: HB[2k] <- BB[k] div 16; HB[2k+1] <- BB[k] mod 16` (R67), write by write. -/
def expandLoop (m : Memory) (n : Nat) : Memory :=
  (List.range n).foldl
    (fun m k => (m.setDigit (2 * k) (BitVec.ofNat 4 ((m.byteAt k).toNat / 16))).setDigit (2 * k + 1)
      (BitVec.ofNat 4 ((m.byteAt k).toNat % 16))) m

/-- `for k in 0 .. n-1: BB[k] <- 16 * HB[2k] + HB[2k+1]` (R68), write by write. -/
def pairLoop (m : Memory) (n : Nat) : Memory :=
  (List.range n).foldl
    (fun m k => m.setByte k (BitVec.ofNat 8 (16 * (m.digitAt (2 * k)).toNat + (m.digitAt (2 * k + 1)).toNat))) m

end Sys2Proof.Machine
end

