-- ==== Sys2Proof/Certificates/Slice0/Obligations.lean ====
section
/-! DEFINITION. The statements for the provers. Each docstring names the rule of spec/ it formalises. A
statement about every state is about every capacity, since the capacities stand in the state (log entry 3). -/

open Sys2Proof Sys2Proof.Machine

/-! ## Encoding -/

/-- R45, R47: the decoder reads each command back from its own word. -/
def Obligations.EncodedCommandDecodes : Prop :=
  ∀ i : Instr, i.wellFormed = true → decode (encode i) = .ok i

/-- R48: the decoder is total on all 2^32 words; the 13 words of the table decode to their commands and every
other word is illegal. -/
def Obligations.DecoderAcceptsExactlyTheThirteenWords : Prop :=
  (∀ (w : Word) (i : Instr), decode w = .ok i ↔ w = encode i) ∧
    (∀ w : Word, (∃ e, decode w = .error e) ↔ ¬WellFormedWord w) ∧
    (∀ w : Word, WellFormedWord w ↔ w.toNat ≤ 12)

/-- R45, R47, R48: words written out from the table of command codes, and the reserved codes and words with a
high bit set of V35. -/
def Obligations.TableWordsDecode : Prop :=
  decode 0b0000_0000_0000_0000_0000_0000_0000_0000#32 = .ok .nop ∧
    decode 0b0000_0000_0000_0000_0000_0000_0000_0010#32 = .ok .b2d ∧
    decode 0b0000_0000_0000_0000_0000_0000_0000_0011#32 = .ok .b2h ∧
    decode 0b0000_0000_0000_0000_0000_0000_0000_0111#32 = .ok .enc ∧
    decode 0b0000_0000_0000_0000_0000_0000_0000_1010#32 = .ok .dec ∧
    decode 0b0000_0000_0000_0000_0000_0000_0000_1100#32 = .ok .srst ∧
    decode 0b0000_0000_0000_0000_0000_0000_0000_1101#32 = .error (.reservedCode 0xD#4) ∧
    decode 0b0000_0000_0000_0000_0000_0000_0001_0111#32 = .error .highBitsSet ∧
    decode 0b1000_0000_0000_0000_0000_0000_0000_0111#32 = .error .highBitsSet

/-! ## The step -/

/-- R12, R43: a step whose action is a host write to CMD is that write on the state with the action taken, and
where the word decodes it runs its command. That a step takes the next action of a script is the model's, log
entry 1. -/
def Obligations.StepRunsTheDecodedCommand : Prop :=
  ∀ (s : State) (w : Word) (rest : List HostAction), s.script = .writeReg 0 w :: rest →
    step s = ({ s with script := rest } : State).writeCmd w ∧
    ∀ i, decode w = .ok i → step s = exec i { s with script := rest }

/-- The model's way of placing a word (log entry 7): the next step after it runs exactly that word's command, and
the host's later actions stay as they were. -/
def Obligations.PlacedWordIsTheNextCommand : Prop :=
  ∀ (s : State) (w : Word) (i : Instr), decode w = .ok i →
    step (s.withFetchWord 32 w.toNat) = exec i s ∧ decodeTableWord 32 w.toNat = some i

/-- R116: a write of a word to CMD: CLR and SRST always run; else with an error latched nothing happens; else an
illegal word latches `E_ILLCMD` (code 1) and nothing else; else the word's command runs. -/
def Obligations.CommandWriteFollowsTheAcceptanceOrder : Prop :=
  ∀ (s : State) (w : Word),
    (w = 0x0000000B#32 → s.writeCmd w = exec .clr s) ∧
    (w = 0x0000000C#32 → s.writeCmd w = exec .srst s) ∧
    (¬IsReleaseWord w → s.status.err = true → s.writeCmd w = .next s) ∧
    (s.status.err = false → ¬WellFormedWord w → s.writeCmd w = .next (latched 1#3 s)) ∧
    (s.status.err = false → ∀ i, decode w = .ok i → s.writeCmd w = exec i s)

/-- R116, R120: a command other than CLR and SRST does nothing while an error is latched. -/
def Obligations.LatchedErrorRefusesCommands : Prop :=
  ∀ (i : Instr) (s : State), i ≠ .clr → i ≠ .srst → s.status.err = true → exec i s = .next s

/-- R141, R44: with no host action left the block is idle, however long. The script is the model's own field,
log entry 1. -/
def Obligations.IdleBlockStaysAsItIs : Prop :=
  ∀ (n : Nat) (s : State), s.script = [] → runSteps n s = .next s

/-! ## Errors -/

/-- R113 with R115 and R117: with no error latched, a command raises exactly the first of `E_CFG` (2), `E_CAP`
(3), `E_RANGE` (4) whose condition in the table holds, and the latch is all it writes; where none holds it
completes and no error is latched. -/
def Obligations.CommandsRaiseExactlyTheTabledErrors : Prop :=
  ∀ (i : Instr) (s : State), s.status.err = false →
    (CfgWhen i s → exec i s = .next (latched 2#3 s)) ∧
    (¬CfgWhen i s → CapWhen i s → exec i s = .next (latched 3#3 s)) ∧
    (¬CfgWhen i s → ¬CapWhen i s → RangeWhen i s → exec i s = .next (latched 4#3 s)) ∧
    (Clean i s → ∃ t, exec i s = .next t ∧ t.status.err = false)

/-- R114: a command that raises leaves every register but STATUS and ERRCODE, and every buffer element, as
they were; ODD and EMPTY stay too (R115). -/
def Obligations.RaisingCommandWritesOnlyTheLatch : Prop :=
  ∀ (i : Instr) (s t : State), s.status.err = false → exec i s = .next t → t.status.err = true →
    t = { s with status := t.status, errcode := t.errcode } ∧
      t.status.odd = s.status.odd ∧ t.status.empty = s.status.empty

/-- R119: a command that failed, issued again after CLR, fails again in the same way. -/
def Obligations.RetryAfterClearFailsTheSameWay : Prop :=
  ∀ (i : Instr) (s t u : State), s.status.err = false → exec i s = .next t → t.status.err = true →
    exec .clr t = .next u → ∃ v, exec i u = .next v ∧ v.status.err = true ∧ v.errcode = t.errcode ∧
      v.mem = s.mem

/-- R116, R120: over any run of host actions none of which writes the CLR or the SRST word to CMD, a latched
error stays latched and ERRCODE keeps the first error. -/
def Obligations.LatchedErrorStaysUntilReleased : Prop :=
  ∀ (n : Nat) (s t : State), s.status.err = true →
    (∀ w, IsReleaseWord w → HostAction.writeReg 0 w ∉ s.script) →
    runSteps n s = .next t → t.status = s.status ∧ t.errcode = s.errcode

/-- R38: every command is a total function of the state. -/
def Obligations.EveryCommandCompletesInEveryState : Prop :=
  ∀ (i : Instr) (s : State), ∃ t, exec i s = .next t

/-- R122, R111: no step brings ERRCODE to the codes 5, 6 or 7. -/
def Obligations.HexConversionErrorIsUnreachable : Prop :=
  ∀ s t : State, s.errcode.toNat ≤ 4 → step s = .next t → t.errcode.toNat ≤ 4

/-! ## Reset and housekeeping -/

/-- R130 with R131: the registers after reset, whatever the capacities and whatever the buffers hold, as the host
reads them; and SRST brings them to the same values from any state. -/
def Obligations.ResetGivesTheTabledRegisters : Prop :=
  (∀ (c : Config) (m : Memory),
    (List.range 16).map (State.resetWith c m).readReg =
      [some 0#32, some 0#32, some 0#32, some 20#32, some 2#32, some 0#32, some 0#32, some 0#32, some 0#32,
        some 0#32, some 0#32, some 0#32, some 0#32, some 0#32, some 0#32, some 200#32]) ∧
  (∀ (s : State) (c : Config) (m : Memory), ∃ t, exec .srst s = .next t ∧
    (List.range 16).map t.readReg = (List.range 16).map (State.resetWith c m).readReg)

/-- R102, R130: SRST completes in every state and leaves the state a reset of the same block with the same
buffers leaves. That it keeps what the host has still to do and has read, the model's own fields, is the model's
choice, log entries 1 and 2. -/
def Obligations.SoftResetEqualsReset : Prop :=
  ∀ s : State,
    exec .srst s = .next { s with
      status := ⟨false, false, false⟩, errcode := 0#3, cell := 20#32, lw := 2#32, blen := 0#32, hlen := 0#32,
      imw := 0#32, imh := 0#32, cols := 0#32, rows := 0#32, ccol := 0#32, crow := 0#32, dig := 0#4, quad := 0#4 } ∧
    exec .srst s = .next { State.resetWith s.config s.mem with script := s.script, replies := s.replies }

/-- R101: CLR completes in every state; it clears STATUS and ERRCODE and changes nothing else. -/
def Obligations.ClearReleasesTheErrorAndNothingElse : Prop :=
  ∀ s : State, exec .clr s = .next { s with status := ⟨false, false, false⟩, errcode := 0#3 }

/-- R100: NOP changes nothing, in any state. -/
def Obligations.NopChangesNothing : Prop :=
  ∀ s : State, exec .nop s = .next s

/-! ## The cell codec -/

/-- R62: D2B writes QUAD with the flags of DIG, bit for bit the same value (R50), and nothing else. -/
def Obligations.DigitToBitsWritesQuad : Prop :=
  ∀ s : State, s.status.err = false →
    exec .d2b s = .next { s with quad := BitVec.ofNat 4 s.dig.toNat }

/-- R63: B2D writes DIG with `8*q[3] + 4*q[2] + 2*q[1] + q[0]`, and nothing else. -/
def Obligations.BitsToDigitWritesDig : Prop :=
  ∀ s : State, s.status.err = false →
    exec .b2d s = .next { s with
      dig := BitVec.ofNat 4 (8 * (s.quad.getLsbD 3).toNat + 4 * (s.quad.getLsbD 2).toNat +
        2 * (s.quad.getLsbD 1).toNat + (s.quad.getLsbD 0).toNat) }

/-- R64: the two functions of the codec undo each other, and held as four bits both are the identity. -/
def Obligations.CellCodecIsABijection : Prop :=
  (∀ d : Digit, bitsToDigit (digitToBits d) = d) ∧ (∀ q : Quad, digitToBits (bitsToDigit q) = q) ∧
    (∀ d : Digit, quadReg (digitToBits d) = d ∧ bitsToDigit (regQuad d) = d)

/-- R46, R50: the sixteen rows of the glyph code, and the number of a quadruple in QUAD's bit order (R24). -/
def Obligations.GlyphCodeIsTheTable : Prop :=
  (List.range 16).map (fun k => digitToBits (BitVec.ofNat 4 k)) =
      [⟨false, false, false, false⟩, ⟨false, false, false, true⟩, ⟨false, false, true, false⟩,
        ⟨false, false, true, true⟩, ⟨false, true, false, false⟩, ⟨false, true, false, true⟩,
        ⟨false, true, true, false⟩, ⟨false, true, true, true⟩, ⟨true, false, false, false⟩,
        ⟨true, false, false, true⟩, ⟨true, false, true, false⟩, ⟨true, false, true, true⟩,
        ⟨true, true, false, false⟩, ⟨true, true, false, true⟩, ⟨true, true, true, false⟩,
        ⟨true, true, true, true⟩] ∧
    (∀ q : Quad, (bitsToDigit q).toNat =
      8 * q.backslash.toNat + 4 * q.slash.toNat + 2 * q.vertical.toNat + q.horizontal.toNat) ∧
    (∀ q : Quad, quadReg q = bitsToDigit q ∧ regQuad (quadReg q) = q) ∧
    (∀ d : Digit, quadReg (digitToBits d) = d)

/-! ## Bytes and digits -/

/-- R65, R66: `expand` and `pair` element by element. -/
def Obligations.ExpandAndPairElementwise : Prop :=
  (∀ bs : List Byte, (expand bs).length = 2 * bs.length ∧ ∀ (k : Nat) (h : k < bs.length),
      ((expand bs)[2 * k]?).map BitVec.toNat = some ((bs[k]'h).toNat / 16) ∧
      ((expand bs)[2 * k + 1]?).map BitVec.toNat = some ((bs[k]'h).toNat % 16)) ∧
    (∀ hs : List Digit, (pair hs).length = hs.length / 2 ∧ ∀ (k : Nat) (h : 2 * k + 1 < hs.length),
      ((pair hs)[k]?).map BitVec.toNat = some (16 * (hs[2 * k]'(by omega)).toNat + (hs[2 * k + 1]'h).toNat))

/-- R69: `pair` undoes `expand`; `expand` undoes `pair` but for an odd last digit, which is gone. -/
def Obligations.PairAndExpandLaws : Prop :=
  (∀ bs : List Byte, pair (expand bs) = bs) ∧
    (∀ hs : List Digit, hs.length % 2 = 0 → expand (pair hs) = hs) ∧
    (∀ hs : List Digit, hs.length % 2 = 1 → expand (pair hs) = hs.dropLast)

/-- R67: B2H latches `E_CAP` when `BLEN > MAX_BYTES` and completes otherwise: the digits, HLEN, and the frame. -/
def Obligations.BytesToHexResult : Prop :=
  ∀ s : State, s.status.err = false → s.config.Legal →
    (s.config.maxBytes < s.blen.toNat → exec .b2h s = .next (latched 3#3 s)) ∧
    (s.blen.toNat ≤ s.config.maxBytes → ∃ t, exec .b2h s = .next t ∧ t.hlen.toNat = 2 * s.blen.toNat ∧
      (∀ k < s.blen.toNat,
        (t.mem.digitAt (2 * k)).toNat = (s.mem.byteAt k).toNat / 16 ∧
        (t.mem.digitAt (2 * k + 1)).toNat = (s.mem.byteAt k).toNat % 16) ∧
      (∀ k, 2 * s.blen.toNat ≤ k → t.mem.digitAt k = s.mem.digitAt k) ∧
      t = { s with mem := { s.mem with hb := t.mem.hb }, hlen := t.hlen })

/-- R68: H2B latches `E_CAP` when `HLEN > MAX_DIGITS` and completes otherwise: the bytes, BLEN, ODD, and the
frame. -/
def Obligations.HexToBytesResult : Prop :=
  ∀ s : State, s.status.err = false →
    (s.config.maxDigits < s.hlen.toNat → exec .h2b s = .next (latched 3#3 s)) ∧
    (s.hlen.toNat ≤ s.config.maxDigits → ∃ t, exec .h2b s = .next t ∧ t.blen.toNat = s.hlen.toNat / 2 ∧
      (∀ k < s.hlen.toNat / 2,
        (t.mem.byteAt k).toNat = 16 * (s.mem.digitAt (2 * k)).toNat + (s.mem.digitAt (2 * k + 1)).toNat) ∧
      (∀ k, s.hlen.toNat / 2 ≤ k → t.mem.byteAt k = s.mem.byteAt k) ∧
      (t.status.odd = true ↔ s.hlen.toNat % 2 = 1) ∧
      t = { s with mem := { s.mem with bb := t.mem.bb }, blen := t.blen,
                   status := { s.status with odd := t.status.odd } })

/-! ## The encoder -/

/-- R73 with R71, R72: LAYOUT latches `E_CFG` when CELL is 0, else `E_CAP` when the digits or the image do not
fit, and completes otherwise: the grid, the dimensions, the black image, the cursor, EMPTY, and the frame. -/
def Obligations.LayoutResult : Prop :=
  ∀ s : State, s.status.err = false → s.config.Legal →
    (s.cell = 0#32 → exec .layout s = .next (latched 2#3 s)) ∧
    (s.cell ≠ 0#32 → s.config.maxDigits < s.hlen.toNat ∨ s.config.maxW < max 1 s.hlen.toNat * s.cell.toNat ∨
      s.config.maxH < s.cell.toNat → exec .layout s = .next (latched 3#3 s)) ∧
    (s.cell ≠ 0#32 → s.hlen.toNat ≤ s.config.maxDigits → max 1 s.hlen.toNat * s.cell.toNat ≤ s.config.maxW →
      s.cell.toNat ≤ s.config.maxH → ∃ t, exec .layout s = .next t ∧ t.cols.toNat = max 1 s.hlen.toNat ∧ t.rows.toNat = 1 ∧
      t.imw.toNat = max 1 s.hlen.toNat * s.cell.toNat ∧ t.imh.toNat = s.cell.toNat ∧
      t.ccol.toNat = 0 ∧ t.crow.toNat = 0 ∧ (t.status.empty = true ↔ s.hlen.toNat = 0) ∧
      (∀ x y, x < t.imw.toNat → y < t.imh.toNat → t.mem.pixelAt x y = ⟨0#8, 0#8, 0#8⟩) ∧
      (∀ x y, ¬(x < t.imw.toNat ∧ y < t.imh.toNat) → t.mem.pixelAt x y = s.mem.pixelAt x y) ∧
      t = { s with cols := t.cols, rows := t.rows, imw := t.imw, imh := t.imh, ccol := t.ccol, crow := t.crow,
                   status := { s.status with empty := t.status.empty },
                   mem := { s.mem with pb := t.mem.pb } })

/-- R77 with R75, R76: DRAWC's three errors in their order, and otherwise it completes: the digit, the pixels it
whitens (inside its cell and inside the image, and no others), the cursor, and the frame. -/
def Obligations.DrawCellResult : Prop :=
  ∀ s : State, s.status.err = false →
    (s.cell = 0#32 ∨ s.lw = 0#32 → exec .drawc s = .next (latched 2#3 s)) ∧
    (s.cell ≠ 0#32 → s.lw ≠ 0#32 → s.config.maxDigits < s.hlen.toNat ∨ s.config.maxW < s.imw.toNat ∨
      s.config.maxH < s.imh.toNat → exec .drawc s = .next (latched 3#3 s)) ∧
    (s.cell ≠ 0#32 → s.lw ≠ 0#32 → s.hlen.toNat ≤ s.config.maxDigits → s.imw.toNat ≤ s.config.maxW →
      s.imh.toNat ≤ s.config.maxH → s.hlen.toNat ≤ s.ccol.toNat → exec .drawc s = .next (latched 4#3 s)) ∧
    (s.cell ≠ 0#32 → s.lw ≠ 0#32 → s.hlen.toNat ≤ s.config.maxDigits → s.imw.toNat ≤ s.config.maxW →
      s.imh.toNat ≤ s.config.maxH → s.ccol.toNat < s.hlen.toNat → ∃ t, exec .drawc s = .next t ∧ t.dig = s.mem.digitAt s.ccol.toNat ∧ t.quad = s.mem.digitAt s.ccol.toNat ∧
      t.ccol.toNat = s.ccol.toNat + 1 ∧
      (∀ x y, t.mem.pixelAt x y =
        if s.ccol.toNat * s.cell.toNat ≤ x ∧ x < (s.ccol.toNat + 1) * s.cell.toNat ∧ y < s.cell.toNat ∧
            x < s.imw.toNat ∧ y < s.imh.toNat ∧
            GlyphWhite (s.mem.digitAt s.ccol.toNat) s.cell.toNat s.lw.toNat
              (x - s.ccol.toNat * s.cell.toNat) y
        then ⟨255#8, 255#8, 255#8⟩ else s.mem.pixelAt x y) ∧
      t = { s with dig := t.dig, quad := t.quad, ccol := t.ccol, mem := { s.mem with pb := t.mem.pb } })

/-- R78 with R80: ENC's two errors in their order, and otherwise it completes: the digits, every register, the
image in closed form, and the frame. -/
def Obligations.EncodeResult : Prop :=
  ∀ s : State, s.status.err = false → s.config.Legal →
    (s.cell = 0#32 ∨ s.lw = 0#32 → exec .enc s = .next (latched 2#3 s)) ∧
    (s.cell ≠ 0#32 → s.lw ≠ 0#32 → s.config.maxBytes < s.blen.toNat ∨
      s.config.maxW < max 1 (2 * s.blen.toNat) * s.cell.toNat ∨ s.config.maxH < s.cell.toNat →
      exec .enc s = .next (latched 3#3 s)) ∧
    (s.cell ≠ 0#32 → s.lw ≠ 0#32 → s.blen.toNat ≤ s.config.maxBytes →
      max 1 (2 * s.blen.toNat) * s.cell.toNat ≤ s.config.maxW → s.cell.toNat ≤ s.config.maxH → ∃ t, exec .enc s = .next t ∧ t.hlen.toNat = 2 * s.blen.toNat ∧
      t.cols.toNat = max 1 (2 * s.blen.toNat) ∧ t.rows.toNat = 1 ∧
      t.imw.toNat = max 1 (2 * s.blen.toNat) * s.cell.toNat ∧ t.imh.toNat = s.cell.toNat ∧
      t.ccol.toNat = 2 * s.blen.toNat ∧ t.crow.toNat = 0 ∧ (t.status.empty = true ↔ s.blen.toNat = 0) ∧
      (∀ k < s.blen.toNat,
        (t.mem.digitAt (2 * k)).toNat = (s.mem.byteAt k).toNat / 16 ∧
        (t.mem.digitAt (2 * k + 1)).toNat = (s.mem.byteAt k).toNat % 16) ∧
      (∀ k, 2 * s.blen.toNat ≤ k → t.mem.digitAt k = s.mem.digitAt k) ∧
      (s.blen.toNat = 0 → t.dig = s.dig ∧ t.quad = s.quad) ∧
      (0 < s.blen.toNat → t.dig = t.mem.digitAt (2 * s.blen.toNat - 1) ∧
        t.quad = t.mem.digitAt (2 * s.blen.toNat - 1)) ∧
      (∀ x y, t.mem.pixelAt x y =
        if x < t.imw.toNat ∧ y < t.imh.toNat then
          if 0 < s.blen.toNat ∧ GlyphWhite (t.mem.digitAt (x / s.cell.toNat)) s.cell.toNat s.lw.toNat
              (x % s.cell.toNat) y
          then ⟨255#8, 255#8, 255#8⟩ else ⟨0#8, 0#8, 0#8⟩
        else s.mem.pixelAt x y) ∧
      t = { s with hlen := t.hlen, cols := t.cols, rows := t.rows, imw := t.imw, imh := t.imh, ccol := t.ccol,
                   crow := t.crow, dig := t.dig, quad := t.quad,
                   status := { s.status with empty := t.status.empty },
                   mem := { s.mem with hb := t.mem.hb, pb := t.mem.pb } })

/-- R79 (b), R78 and R14: the image ENC makes and the registers it leaves are a function of the capacities,
CELL, LW and `BB[0 .. BLEN-1]`; what HB, PB, HLEN, IMW, IMH, COLS, ROWS or the cursor held before is not read. -/
def Obligations.EncodeDependsOnItsInputsOnly : Prop :=
  ∀ s s' t t' : State, s.status.err = false → s'.status.err = false → s.config = s'.config →
    s.cell = s'.cell → s.lw = s'.lw → s.blen = s'.blen → s.config.Legal →
    (∀ k < s.blen.toNat, s.mem.byteAt k = s'.mem.byteAt k) → Clean .enc s →
    exec .enc s = .next t → exec .enc s' = .next t' →
    t.imw = t'.imw ∧ t.imh = t'.imh ∧ t.hlen = t'.hlen ∧ t.cols = t'.cols ∧ t.rows = t'.rows ∧
      t.ccol = t'.ccol ∧ t.crow = t'.crow ∧ t.status.empty = t'.status.empty ∧
      (∀ k < t.hlen.toNat, t.mem.digitAt k = t'.mem.digitAt k) ∧
      (∀ x y, x < t.imw.toNat → y < t.imh.toNat → t.mem.pixelAt x y = t'.mem.pixelAt x y)

/-- R104, encoder: `B2H; LAYOUT; DRAWC x HLEN`, issued one by one by the host, end in the same state as ENC
whenever ENC itself would not raise. -/
def Obligations.EncodeEqualsItsParts : Prop :=
  ∀ s : State, s.status.err = false → s.config.Legal → Clean .enc s →
    runSteps (2 + 2 * s.blen.toNat)
        { s with script := .writeReg 0 3#32 :: .writeReg 0 5#32 ::
                   List.replicate (2 * s.blen.toNat) (.writeReg 0 6#32) } =
      exec .enc { s with script := [] }

/-- R79 (e): DRAWC run again on the same cell with the same digit changes no pixel. -/
def Obligations.DrawingACellTwiceIsDrawingItOnce : Prop :=
  ∀ s t u : State, s.status.err = false → Clean .drawc s → exec .drawc s = .next t →
    exec .drawc { t with ccol := s.ccol } = .next u → ∀ x y, u.mem.pixelAt x y = t.mem.pixelAt x y

/-- R81: which probes a segment lights by itself, in terms of the machine's cover predicates. -/
def Obligations.SegmentsLightTheirOwnProbes : Prop :=
  ∀ n w : Nat, 2 ≤ n → 1 ≤ w →
    (coverBackslash n w 1 1 = true ∧ coverBackslash n w (n - 1) (n - 1) = true) ∧
    (coverSlash n w (n - 1) 1 = true ∧ coverSlash n w 1 (n - 1) = true) ∧
    (coverVertical n w 1 (n / 2) = true ↔ 2 ≤ w) ∧
    (coverHorizontal n w (n / 2) 1 = true ↔ 2 ≤ w)

/-! ## The decoder -/

/-- R88: strictly above 200, the red channel alone, and false outside the image; and so for a pixel just
written, whatever its green and blue. -/
def Obligations.LitIsRedAboveTheThreshold : Prop :=
  (∀ (s : State) (x y : Nat), s.lit x y = true ↔
    x < s.imw.toNat ∧ y < s.imh.toNat ∧ 200 < (s.mem.pixelAt x y).r.toNat) ∧
  (∀ (s : State) (x y : Nat) (r g b : Byte), ({ s with mem := s.mem.setPixel x y ⟨r, g, b⟩ } : State).lit x y = true ↔
    x < s.imw.toNat ∧ y < s.imh.toNat ∧ 200 < r.toNat)

/-- R87 with R86: GRID's two errors in their order, and otherwise it completes: the grid, HLEN, the cursor, and
the frame. -/
def Obligations.GridResult : Prop :=
  ∀ s : State, s.status.err = false →
    (s.cell = 0#32 → exec .grid s = .next (latched 2#3 s)) ∧
    (s.cell ≠ 0#32 → s.config.maxW < s.imw.toNat ∨ s.config.maxH < s.imh.toNat ∨
      s.config.maxDigits < ceilingOf s.imw.toNat s.cell.toNat * ceilingOf s.imh.toNat s.cell.toNat →
      exec .grid s = .next (latched 3#3 s)) ∧
    (s.cell ≠ 0#32 → s.imw.toNat ≤ s.config.maxW → s.imh.toNat ≤ s.config.maxH →
      ceilingOf s.imw.toNat s.cell.toNat * ceilingOf s.imh.toNat s.cell.toNat ≤ s.config.maxDigits → ∃ t, exec .grid s = .next t ∧ t.cols.toNat = ceilingOf s.imw.toNat s.cell.toNat ∧
      t.rows.toNat = ceilingOf s.imh.toNat s.cell.toNat ∧ t.hlen.toNat = 0 ∧ t.ccol.toNat = 0 ∧
      t.crow.toNat = 0 ∧
      t = { s with cols := t.cols, rows := t.rows, hlen := t.hlen, ccol := t.ccol, crow := t.crow })

/-- R92 with R89, R90: PROBEC's three errors in their order, and otherwise it completes: the probed quadruple and
digit, the digit appended at index HLEN, the cursor in raster order, and the frame. -/
def Obligations.ProbeCellResult : Prop :=
  ∀ s : State, s.status.err = false → s.config.Legal →
    (s.cell = 0#32 → exec .probec s = .next (latched 2#3 s)) ∧
    (s.cell ≠ 0#32 → s.config.maxW < s.imw.toNat ∨ s.config.maxH < s.imh.toNat ∨
      s.config.maxDigits ≤ s.hlen.toNat → exec .probec s = .next (latched 3#3 s)) ∧
    (s.cell ≠ 0#32 → s.imw.toNat ≤ s.config.maxW → s.imh.toNat ≤ s.config.maxH →
      s.hlen.toNat < s.config.maxDigits → s.cols.toNat ≤ s.ccol.toNat ∨ s.rows.toNat ≤ s.crow.toNat →
      exec .probec s = .next (latched 4#3 s)) ∧
    (s.cell ≠ 0#32 → s.imw.toNat ≤ s.config.maxW → s.imh.toNat ≤ s.config.maxH →
      s.hlen.toNat < s.config.maxDigits → s.ccol.toNat < s.cols.toNat → s.crow.toNat < s.rows.toNat → ∃ t, exec .probec s = .next t ∧ ProbesTo s s.ccol.toNat s.crow.toNat t.dig ∧ t.quad = t.dig ∧
      t.hlen.toNat = s.hlen.toNat + 1 ∧ t.mem.digitAt s.hlen.toNat = t.dig ∧
      (∀ k, k ≠ s.hlen.toNat → t.mem.digitAt k = s.mem.digitAt k) ∧
      (s.ccol.toNat + 1 < s.cols.toNat → t.ccol.toNat = s.ccol.toNat + 1 ∧ t.crow = s.crow) ∧
      (¬s.ccol.toNat + 1 < s.cols.toNat → t.ccol.toNat = 0 ∧ t.crow.toNat = s.crow.toNat + 1) ∧
      t = { s with dig := t.dig, quad := t.quad, hlen := t.hlen, ccol := t.ccol, crow := t.crow,
                   mem := { s.mem with hb := t.mem.hb } })

/-- R93: DEC's two errors in their order, and otherwise it completes: the digit of every cell at its place in
raster order, the bytes, every register, and the frame. For a grid without a column the pseudocode runs no PROBEC
and the cursor stays (0, 0): the model's reading, log entry 12. -/
def Obligations.DecodeResult : Prop :=
  ∀ s : State, s.status.err = false → s.config.Legal →
    (s.cell = 0#32 → exec .dec s = .next (latched 2#3 s)) ∧
    (s.cell ≠ 0#32 → s.config.maxW < s.imw.toNat ∨ s.config.maxH < s.imh.toNat ∨
      s.config.maxDigits < ceilingOf s.imw.toNat s.cell.toNat * ceilingOf s.imh.toNat s.cell.toNat →
      exec .dec s = .next (latched 3#3 s)) ∧
    (s.cell ≠ 0#32 → s.imw.toNat ≤ s.config.maxW → s.imh.toNat ≤ s.config.maxH →
      ceilingOf s.imw.toNat s.cell.toNat * ceilingOf s.imh.toNat s.cell.toNat ≤ s.config.maxDigits → ∃ t, exec .dec s = .next t ∧ t.cols.toNat = ceilingOf s.imw.toNat s.cell.toNat ∧
      t.rows.toNat = ceilingOf s.imh.toNat s.cell.toNat ∧ t.hlen.toNat = t.cols.toNat * t.rows.toNat ∧
      t.blen.toNat = t.hlen.toNat / 2 ∧ t.ccol.toNat = 0 ∧
      t.crow.toNat = (if t.cols.toNat = 0 then 0 else t.rows.toNat) ∧
      (t.status.odd = true ↔ t.hlen.toNat % 2 = 1) ∧
      (∀ r < t.rows.toNat, ∀ c < t.cols.toNat, ProbesTo s c r (t.mem.digitAt (r * t.cols.toNat + c))) ∧
      (∀ k, t.hlen.toNat ≤ k → t.mem.digitAt k = s.mem.digitAt k) ∧
      (∀ k < t.blen.toNat,
        (t.mem.byteAt k).toNat = 16 * (t.mem.digitAt (2 * k)).toNat + (t.mem.digitAt (2 * k + 1)).toNat) ∧
      (∀ k, t.blen.toNat ≤ k → t.mem.byteAt k = s.mem.byteAt k) ∧
      (t.hlen.toNat = 0 → t.dig = s.dig ∧ t.quad = s.quad) ∧
      (0 < t.hlen.toNat → t.dig = t.mem.digitAt (t.hlen.toNat - 1) ∧ t.quad = t.dig) ∧
      t = { s with cols := t.cols, rows := t.rows, hlen := t.hlen, blen := t.blen, ccol := t.ccol, crow := t.crow,
                   dig := t.dig, quad := t.quad, status := { s.status with odd := t.status.odd },
                   mem := { s.mem with bb := t.mem.bb, hb := t.mem.hb } })

/-- R85, R88, R99 (a), R93: what DEC returns depends on the capacities, CELL, IMW, IMH and on which pixels are
lit, and on nothing else: not on LW, not on green or blue, not on what HB, BB, their lengths or the grid held. -/
def Obligations.DecodeDependsOnLitPixelsOnly : Prop :=
  ∀ s s' t t' : State, s.status.err = false → s'.status.err = false → s.config = s'.config → s.config.Legal →
    s.cell = s'.cell → s.imw = s'.imw → s.imh = s'.imh → (∀ x y, IsLit s x y ↔ IsLit s' x y) → Clean .dec s →
    exec .dec s = .next t → exec .dec s' = .next t' →
    t.blen = t'.blen ∧ t.hlen = t'.hlen ∧ t.cols = t'.cols ∧ t.rows = t'.rows ∧ t.ccol = t'.ccol ∧
      t.crow = t'.crow ∧ t.status.odd = t'.status.odd ∧
      (∀ k < t.hlen.toNat, t.mem.digitAt k = t'.mem.digitAt k) ∧
      (∀ k < t.blen.toNat, t.mem.byteAt k = t'.mem.byteAt k)

/-- R104, decoder: `GRID; PROBEC x (COLS*ROWS); H2B`, issued one by one by the host, end in the same state as
DEC whenever DEC itself would not raise. -/
def Obligations.DecodeEqualsItsParts : Prop :=
  ∀ s : State, s.status.err = false → s.config.Legal → Clean .dec s →
    runSteps
        (ceilingOf s.imw.toNat s.cell.toNat * ceilingOf s.imh.toNat s.cell.toNat + 2)
        { s with script := .writeReg 0 8#32 ::
                   (List.replicate (ceilingOf s.imw.toNat s.cell.toNat * ceilingOf s.imh.toNat s.cell.toNat)
                      (.writeReg 0 9#32) ++ [.writeReg 0 4#32]) } =
      exec .dec { s with script := [] }

/-- R92 with R22, R86: after GRID and `k` PROBECs, as many as the grid has cells or fewer, `k` digits are in HB
and the cursor stands at the cell with the number `k` in raster order: `HLEN = k = CROW * COLS + CCOL`; after the
last cell it is `(0, ROWS)`. -/
def Obligations.ScanPositionCountsTheDigits : Prop :=
  ∀ (s : State) (k : Nat), s.status.err = false → s.config.Legal → Clean .grid s →
    k ≤ ceilingOf s.imw.toNat s.cell.toNat * ceilingOf s.imh.toNat s.cell.toNat →
    ∃ t, runSteps (k + 1) { s with script := .writeReg 0 8#32 :: List.replicate k (.writeReg 0 9#32) } = .next t ∧
      t.status = s.status ∧ t.hlen.toNat = k ∧ t.crow.toNat * t.cols.toNat + t.ccol.toNat = k ∧
      (0 < t.cols.toNat → t.ccol.toNat < t.cols.toNat) ∧
      (0 < k → k = t.cols.toNat * t.rows.toNat → t.ccol.toNat = 0 ∧ t.crow = t.rows)

/-! ## Decode of encode -/

/-- R94: a cell wholly inside the image that shows what `DrawCell` gives for the flags `q` on a black ground
is probed as the formulas of R94 say, at every cell size from 2 and every line width from 1, whatever stands
in the other cells. -/
def Obligations.DrawnCellIsProbedByTheFormula : Prop :=
  ∀ (s : State) (c r n w : Nat) (q : Quad), s.cell.toNat = n → 2 ≤ n → 1 ≤ w →
    (c + 1) * n ≤ s.imw.toNat → (r + 1) * n ≤ s.imh.toNat →
    (∀ u v, u < n → v < n → s.mem.pixelAt (c * n + u) (r * n + v) =
      if covered q n w u v = true then ⟨255#8, 255#8, 255#8⟩ else ⟨0#8, 0#8, 0#8⟩) →
    s.probeCell c r = probedFlags n w q

/-- R95: in the regular regime the formulas of R94 come to `B, S or (V and H), V, H`, the map `T` on digits;
and for `W >= 2` they give `T` on all sixteen digits only in this regime. -/
def Obligations.RegularRegimeClosedForm : Prop :=
  (∀ (n w : Nat) (q : Quad), RegularRegime n w → probedFlags n w q =
      ⟨q.backslash, q.slash || (q.vertical && q.horizontal), q.vertical, q.horizontal⟩) ∧
    (∀ (n w : Nat) (d : Digit), RegularRegime n w → probedFlags n w (flagsOf d) = flagsOf (survivor d)) ∧
    (∀ n w : Nat, 2 ≤ n → 2 ≤ w → (∀ d, probedFlags n w (flagsOf d) = flagsOf (survivor d)) → RegularRegime n w)

/-- R94 with R78, R93: ENC followed by DEC, at every cell size from 2 and every line width from 1, turns each
digit into the one the formulas of R94 give for it. -/
def Obligations.EncodeThenDecodeMapsEveryDigit : Prop :=
  ∀ s t u : State, s.status.err = false → s.config.Legal → Clean .enc s → 0 < s.blen.toNat →
    2 ≤ s.cell.toNat → exec .enc s = .next t → exec .dec t = .next u →
    u.status.err = false ∧ u.hlen = t.hlen ∧
      ∀ k < t.hlen.toNat,
        flagsOf (u.mem.digitAt k) = probedFlags s.cell.toNat s.lw.toNat (flagsOf (t.mem.digitAt k))

/-- R96: the round trip as the rules give it: in the regular regime ENC followed by DEC ends with
`BLEN = n`, `HLEN = 2n`, `ODD = 0`, and each byte with `T` applied to both its nibbles; the bytes come back
unchanged iff no nibble of any of them is 0x3 or 0xB. -/
def Obligations.RoundTripInTheRegularRegime : Prop :=
  ∀ s : State, s.status.err = false → s.config.Legal → Clean .enc s → 0 < s.blen.toNat →
    RegularRegime s.cell.toNat s.lw.toNat →
    ∃ t u, exec .enc s = .next t ∧ exec .dec t = .next u ∧ u.blen.toNat = s.blen.toNat ∧
      u.hlen.toNat = 2 * s.blen.toNat ∧ u.status.odd = false ∧ u.status.err = false ∧
      (∀ k < s.blen.toNat, (u.mem.byteAt k).toNat =
        16 * (survivor (BitVec.ofNat 4 ((s.mem.byteAt k).toNat / 16))).toNat +
          (survivor (BitVec.ofNat 4 ((s.mem.byteAt k).toNat % 16))).toNat) ∧
      ((∀ k < s.blen.toNat, u.mem.byteAt k = s.mem.byteAt k) ↔
        ∀ k < s.blen.toNat, ¬Lost (BitVec.ofNat 4 ((s.mem.byteAt k).toNat / 16)) ∧
          ¬Lost (BitVec.ofNat 4 ((s.mem.byteAt k).toNat % 16))) ∧
      ((List.range 256).filter fun b =>
        decide (¬Lost (BitVec.ofNat 4 (b / 16)) ∧ ¬Lost (BitVec.ofNat 4 (b % 16)))).length = 196

/-- R97 (a): at line width 1 and a cell size of 4 or more, ENC followed by DEC keeps the upper two bits of
every digit and clears the lower two. -/
def Obligations.WidthOneLosesTheEdges : Prop :=
  ∀ s t u : State, s.status.err = false → s.config.Legal → Clean .enc s → 0 < s.blen.toNat →
    s.lw = 1#32 → 4 ≤ s.cell.toNat → exec .enc s = .next t → exec .dec t = .next u →
    ∀ k < t.hlen.toNat, u.mem.digitAt k = t.mem.digitAt k &&& 0b1100#4

/-- R97 (c): at cell size 1 a one-row image's cell is probed as the next cell's pixel alone. -/
def Obligations.CellSizeOneReadsTheNextCell : Prop :=
  ∀ (s : State) (c : Nat), s.cell = 1#32 → s.imh = 1#32 →
    s.probeCell c 0 = ⟨false, false, s.lit (c + 1) 0, false⟩

/-- R98: the empty input: ENC makes one black cell and sets EMPTY; DEC of it finds one cell, the one digit 0, drops
it, and returns no byte with ODD set. One byte 0x00 makes two black cells and comes back as the byte 0x00. -/
def Obligations.EmptyInputRoundTrip : Prop :=
  ∀ s : State, s.status.err = false → s.config.Legal → Clean .enc s →
    (s.blen = 0#32 → ∃ t u, exec .enc s = .next t ∧ exec .dec t = .next u ∧ t.status.empty = true ∧ t.hlen = 0#32 ∧
      t.cols = 1#32 ∧ t.rows = 1#32 ∧ t.imw = s.cell ∧ t.imh = s.cell ∧
      (∀ x y, x < s.cell.toNat → y < s.cell.toNat → t.mem.pixelAt x y = ⟨0#8, 0#8, 0#8⟩) ∧
      u.cols = 1#32 ∧ u.rows = 1#32 ∧ u.hlen = 1#32 ∧ u.mem.digitAt 0 = 0#4 ∧ u.blen = 0#32 ∧
      u.status = { t.status with odd := true }) ∧
    (s.blen = 1#32 → s.mem.byteAt 0 = 0#8 → ∃ t u, exec .enc s = .next t ∧ exec .dec t = .next u ∧
      t.status.empty = false ∧ t.cols = 2#32 ∧
      (∀ x y, x < t.imw.toNat → y < t.imh.toNat → t.mem.pixelAt x y = ⟨0#8, 0#8, 0#8⟩) ∧
      u.blen = 1#32 ∧ u.mem.byteAt 0 = 0#8 ∧ u.status.odd = false)

/-! ## The host's moves -/

/-- R26, reads: register by register, the value the row of R11 holds, zero-extended, and CMD and THR constant;
the block does not change (R36); the reply is the model's record of the value (log entry 2). -/
def Obligations.HostReadsRegisters : Prop :=
  ∀ (s : State) (n : Nat) (rest : List HostAction), s.script = .readReg n :: rest → n < 16 →
    ∃ v : Word, step s = .next { s with script := rest, replies := .reg v :: s.replies } ∧
      v.toNat = [0, s.status.err.toNat + 2 * s.status.odd.toNat + 4 * s.status.empty.toNat, s.errcode.toNat,
        s.cell.toNat, s.lw.toNat, s.blen.toNat, s.hlen.toNat, s.imw.toNat, s.imh.toNat, s.cols.toNat,
        s.rows.toNat, s.ccol.toNat, s.crow.toNat, s.dig.toNat, s.quad.toNat, 200].getD n 0

/-- R26, writes: a register the host may write takes the value (DIG and QUAD its low 4 bits), a read-only one
changes nothing; in every state, also with an error latched. -/
def Obligations.HostWritesRegisters : Prop :=
  ∀ (s : State) (n : Nat) (v : Word) (rest : List HostAction), s.script = .writeReg n v :: rest →
    (n ∈ [1, 2, 9, 10, 15] → step s = .next { s with script := rest }) ∧
    (n = 3 → step s = .next { s with script := rest, cell := v }) ∧
    (n = 4 → step s = .next { s with script := rest, lw := v }) ∧
    (n = 5 → step s = .next { s with script := rest, blen := v }) ∧
    (n = 6 → step s = .next { s with script := rest, hlen := v }) ∧
    (n = 7 → step s = .next { s with script := rest, imw := v }) ∧
    (n = 8 → step s = .next { s with script := rest, imh := v }) ∧
    (n = 11 → step s = .next { s with script := rest, ccol := v }) ∧
    (n = 12 → step s = .next { s with script := rest, crow := v }) ∧
    (n = 13 → step s = .next { s with script := rest, dig := BitVec.ofNat 4 (v.toNat % 16) }) ∧
    (n = 14 → step s = .next { s with script := rest, quad := BitVec.ofNat 4 (v.toNat % 16) })

/-- R41: the buffer primitives: a read returns the element, a write changes that element alone, and neither
changes a register; in every state. -/
def Obligations.HostAccessesBuffers : Prop :=
  ∀ (s : State) (a : HostAction) (rest : List HostAction), s.script = a :: rest → a.WellFormed s.config →
    (∀ k, a = .readByte k →
      step s = .next { s with script := rest, replies := .byte (s.mem.byteAt k) :: s.replies }) ∧
    (∀ k, a = .readDigit k →
      step s = .next { s with script := rest, replies := .digit (s.mem.digitAt k) :: s.replies }) ∧
    (∀ x y, a = .readPixel x y →
      step s = .next { s with script := rest, replies := .pixel (s.mem.pixelAt x y) :: s.replies }) ∧
    (∀ k v, a = .writeByte k v → ∃ t, step s = .next t ∧
      (∀ j, t.mem.byteAt j = if j = k then v else s.mem.byteAt j) ∧
      t = { s with script := rest, mem := { s.mem with bb := t.mem.bb } }) ∧
    (∀ k v, a = .writeDigit k v → ∃ t, step s = .next t ∧
      (∀ j, t.mem.digitAt j = if j = k then v else s.mem.digitAt j) ∧
      t = { s with script := rest, mem := { s.mem with hb := t.mem.hb } }) ∧
    (∀ x y p, a = .writePixel x y p → ∃ t, step s = .next t ∧
      (∀ x' y', t.mem.pixelAt x' y' = if x' = x ∧ y' = y then p else s.mem.pixelAt x' y') ∧
      t = { s with script := rest, mem := { s.mem with pb := t.mem.pb } })

/-- R26, R37 (d): a step answers a next state exactly when its action has a meaning (a register number below
16, an index below the capacity); any other action is refused, by the name of what does not exist, with the
very number or index the host gave. That such an action is a refusal is log entry 5. -/
def Obligations.StepCompletesExactlyOnMeaningfulActions : Prop :=
  ∀ (s : State) (a : HostAction) (rest : List HostAction), s.script = a :: rest →
    (a.WellFormed s.config → ∃ t, step s = .next t) ∧
    (∀ n, a = .readReg n → 16 ≤ n → step s = .refused (.noSuchRegister n)) ∧
    (∀ n v, a = .writeReg n v → 16 ≤ n → step s = .refused (.noSuchRegister n)) ∧
    (∀ k, a = .readByte k → s.config.maxBytes ≤ k → step s = .refused (.noSuchByte k)) ∧
    (∀ k v, a = .writeByte k v → s.config.maxBytes ≤ k → step s = .refused (.noSuchByte k)) ∧
    (∀ k, a = .readDigit k → s.config.maxDigits ≤ k → step s = .refused (.noSuchDigit k)) ∧
    (∀ k v, a = .writeDigit k v → s.config.maxDigits ≤ k → step s = .refused (.noSuchDigit k)) ∧
    (∀ x y, a = .readPixel x y → s.config.maxW ≤ x ∨ s.config.maxH ≤ y → step s = .refused (.noSuchPixel x y)) ∧
    (∀ x y q, a = .writePixel x y q → s.config.maxW ≤ x ∨ s.config.maxH ≤ y →
      step s = .refused (.noSuchPixel x y))

/-- R38, R103, R141: every run of meaningful host actions ends, with nothing left to do. -/
def Obligations.EveryMeaningfulRunEnds : Prop :=
  ∀ s : State, (∀ a ∈ s.script, a.WellFormed s.config) →
    ∃ t, runSteps s.script.length s = .next t ∧ t.script = [] ∧ t.config = s.config

/-! ## The machine as a whole -/

/-- The invariant holds after reset, for all legal capacities and all contents of the buffers, and so for
`State.reset` (whose capacities and contents are the model's, log entries 3 and 4). -/
def Obligations.InvariantHoldsAfterReset : Prop :=
  (∀ (c : Config) (m : Memory), c.Legal → m.wf → m.within c → (State.resetWith c m).Inv) ∧ State.reset.Inv

/-- Every step keeps the invariant: legal capacities, canonical buffers without an element the block does not
have (R31 to R33), the latch (R15, R111) and a grid that fits HB (R21). -/
def Obligations.StepKeepsTheInvariant : Prop :=
  ∀ s t : State, s.Inv → step s = .next t → t.Inv

/-- R16, R17 and R28: no command but SRST writes CELL or LW, and none changes a capacity. -/
def Obligations.CommandsLeaveTheConfigurationAlone : Prop :=
  ∀ (i : Instr) (s t : State), exec i s = .next t →
    t.config = s.config ∧ (i ≠ .srst → t.cell = s.cell ∧ t.lw = s.lw)

/-- R27: the complete list of flag writes. -/
def Obligations.FlagWritesAreTheListedOnes : Prop :=
  ∀ (i : Instr) (s t : State), exec i s = .next t →
    (t.status.odd ≠ s.status.odd → i = .h2b ∨ i = .dec ∨ i = .clr ∨ i = .srst) ∧
    (t.status.empty ≠ s.status.empty → i = .layout ∨ i = .enc ∨ i = .clr ∨ i = .srst) ∧
    (s.status.err = false → t.status.err = false → (i = .h2b ∨ i = .dec) →
      (t.status.odd = true ↔ t.hlen.toNat % 2 = 1)) ∧
    (s.status.err = false → t.status.err = false → (i = .layout ∨ i = .enc) →
      (t.status.empty = true ↔ t.hlen.toNat = 0)) ∧
    (i = .clr ∨ i = .srst → t.status = ⟨false, false, false⟩) ∧
    (t.status.err ≠ s.status.err → (s.status.err = false ∧ ¬Clean i s) ∨ i = .clr ∨ i = .srst)

/-- R13, R27: no command reads ODD or EMPTY: whatever they hold, it ends in the same state but for the two. -/
def Obligations.DiagnosticsAreNeverRead : Prop :=
  ∀ (i : Instr) (s t : State) (o e : Bool), exec i s = .next t →
    ∃ t', exec i { s with status := ⟨s.status.err, o, e⟩ } = .next t' ∧
      t' = { t with status := ⟨t.status.err, t'.status.odd, t'.status.empty⟩ }

/-- R30, column "written by", and R42: which commands write which buffer; in particular no decoding command
changes a pixel. -/
def Obligations.BuffersAreWrittenOnlyByTheirCommands : Prop :=
  ∀ (i : Instr) (s t : State), exec i s = .next t →
    (t.mem.bb ≠ s.mem.bb → i = .h2b ∨ i = .dec) ∧
    (t.mem.hb ≠ s.mem.hb → i = .b2h ∨ i = .probec ∨ i = .enc ∨ i = .dec) ∧
    (t.mem.pb ≠ s.mem.pb → i = .layout ∨ i = .drawc ∨ i = .enc)

/-- R103: the cursor moves in no other way than to (0, 0) (and on through the digits, for ENC, or the grid's
rows, for DEC; a grid without a column, and only that, leaves DEC's at (0, 0), log entry 12), one column right
(DRAWC), or one cell on in raster order (PROBEC): right while a column of the row is left, else to the first column
of the next row. -/
def Obligations.CursorMovesOnlyAsListed : Prop :=
  ∀ (i : Instr) (s t : State), exec i s = .next t → (t.ccol ≠ s.ccol ∨ t.crow ≠ s.crow) →
    s.config.Legal →
    ((i = .layout ∨ i = .grid ∨ i = .srst) ∧ t.ccol = 0#32 ∧ t.crow = 0#32) ∨
    (i = .enc ∧ t.ccol = t.hlen ∧ t.crow = 0#32) ∨
    (i = .dec ∧ t.ccol = 0#32 ∧ t.crow = (if t.cols = 0#32 then 0#32 else t.rows)) ∨
    (i = .drawc ∧ t.ccol.toNat = s.ccol.toNat + 1 ∧ t.crow = s.crow) ∨
    (i = .probec ∧
      (s.ccol.toNat + 1 < s.cols.toNat → t.ccol.toNat = s.ccol.toNat + 1 ∧ t.crow = s.crow) ∧
      (¬s.ccol.toNat + 1 < s.cols.toNat → t.ccol = 0#32 ∧ t.crow.toNat = s.crow.toNat + 1))

/-- R67, R68, R73, R76: the bulk operations of the commands' bodies leave exactly the memory the loops of the
pseudocode leave, write by write (log entry 11). -/
def Obligations.BulkOperationsAreThePseudocodeLoops : Prop :=
  ∀ s : State, s.mem.wf →
    (b2hBody s).mem = expandLoop s.mem s.blen.toNat ∧
    (h2bBody s).mem = pairLoop s.mem (s.hlen.toNat / 2) ∧
    (layoutBody s).mem =
      paintLoop s.mem 0 (max 1 s.hlen.toNat * s.cell.toNat) s.cell.toNat (fun _ _ => true) ⟨0#8, 0#8, 0#8⟩ ∧
    (drawcBody s).mem =
      paintLoop s.mem (s.ccol.toNat * s.cell.toNat) s.cell.toNat s.cell.toNat
        (fun u v => covered (digitToBits (s.mem.digitAt s.ccol.toNat)) s.cell.toNat s.lw.toNat u v &&
          (decide (s.ccol.toNat * s.cell.toNat + u < s.imw.toNat) && decide (v < s.imh.toNat)))
        ⟨255#8, 255#8, 255#8⟩
end

