-- ==== Sys2Proof/Laws/State.lean ====
section
/-! SUPPORT. The state's updates, field by field: one lemma per field per update, each true by definition. -/

namespace Sys2Proof.Machine

@[simp] theorem raise_config (e : Error) (s : State) : (State.raise e s).config = s.config := rfl
@[simp] theorem raise_status (e : Error) (s : State) : (State.raise e s).status = { s.status with err := true } := rfl
@[simp] theorem raise_errcode (e : Error) (s : State) : (State.raise e s).errcode = e.code := rfl
@[simp] theorem raise_cell (e : Error) (s : State) : (State.raise e s).cell = s.cell := rfl
@[simp] theorem raise_lw (e : Error) (s : State) : (State.raise e s).lw = s.lw := rfl
@[simp] theorem raise_blen (e : Error) (s : State) : (State.raise e s).blen = s.blen := rfl
@[simp] theorem raise_hlen (e : Error) (s : State) : (State.raise e s).hlen = s.hlen := rfl
@[simp] theorem raise_imw (e : Error) (s : State) : (State.raise e s).imw = s.imw := rfl
@[simp] theorem raise_imh (e : Error) (s : State) : (State.raise e s).imh = s.imh := rfl
@[simp] theorem raise_cols (e : Error) (s : State) : (State.raise e s).cols = s.cols := rfl
@[simp] theorem raise_rows (e : Error) (s : State) : (State.raise e s).rows = s.rows := rfl
@[simp] theorem raise_ccol (e : Error) (s : State) : (State.raise e s).ccol = s.ccol := rfl
@[simp] theorem raise_crow (e : Error) (s : State) : (State.raise e s).crow = s.crow := rfl
@[simp] theorem raise_dig (e : Error) (s : State) : (State.raise e s).dig = s.dig := rfl
@[simp] theorem raise_quad (e : Error) (s : State) : (State.raise e s).quad = s.quad := rfl
@[simp] theorem raise_mem (e : Error) (s : State) : (State.raise e s).mem = s.mem := rfl
@[simp] theorem raise_script (e : Error) (s : State) : (State.raise e s).script = s.script := rfl
@[simp] theorem raise_replies (e : Error) (s : State) : (State.raise e s).replies = s.replies := rfl

@[simp] theorem release_config (s : State) : (s.release).config = s.config := rfl
@[simp] theorem release_status (s : State) : (s.release).status = ⟨false, false, false⟩ := rfl
@[simp] theorem release_errcode (s : State) : (s.release).errcode = 0#3 := rfl
@[simp] theorem release_cell (s : State) : (s.release).cell = s.cell := rfl
@[simp] theorem release_lw (s : State) : (s.release).lw = s.lw := rfl
@[simp] theorem release_blen (s : State) : (s.release).blen = s.blen := rfl
@[simp] theorem release_hlen (s : State) : (s.release).hlen = s.hlen := rfl
@[simp] theorem release_imw (s : State) : (s.release).imw = s.imw := rfl
@[simp] theorem release_imh (s : State) : (s.release).imh = s.imh := rfl
@[simp] theorem release_cols (s : State) : (s.release).cols = s.cols := rfl
@[simp] theorem release_rows (s : State) : (s.release).rows = s.rows := rfl
@[simp] theorem release_ccol (s : State) : (s.release).ccol = s.ccol := rfl
@[simp] theorem release_crow (s : State) : (s.release).crow = s.crow := rfl
@[simp] theorem release_dig (s : State) : (s.release).dig = s.dig := rfl
@[simp] theorem release_quad (s : State) : (s.release).quad = s.quad := rfl
@[simp] theorem release_mem (s : State) : (s.release).mem = s.mem := rfl
@[simp] theorem release_script (s : State) : (s.release).script = s.script := rfl
@[simp] theorem release_replies (s : State) : (s.release).replies = s.replies := rfl

@[simp] theorem setCursor_config (c r : Nat) (s : State) : (State.setCursor c r s).config = s.config := rfl
@[simp] theorem setCursor_status (c r : Nat) (s : State) : (State.setCursor c r s).status = s.status := rfl
@[simp] theorem setCursor_errcode (c r : Nat) (s : State) : (State.setCursor c r s).errcode = s.errcode := rfl
@[simp] theorem setCursor_cell (c r : Nat) (s : State) : (State.setCursor c r s).cell = s.cell := rfl
@[simp] theorem setCursor_lw (c r : Nat) (s : State) : (State.setCursor c r s).lw = s.lw := rfl
@[simp] theorem setCursor_blen (c r : Nat) (s : State) : (State.setCursor c r s).blen = s.blen := rfl
@[simp] theorem setCursor_hlen (c r : Nat) (s : State) : (State.setCursor c r s).hlen = s.hlen := rfl
@[simp] theorem setCursor_imw (c r : Nat) (s : State) : (State.setCursor c r s).imw = s.imw := rfl
@[simp] theorem setCursor_imh (c r : Nat) (s : State) : (State.setCursor c r s).imh = s.imh := rfl
@[simp] theorem setCursor_cols (c r : Nat) (s : State) : (State.setCursor c r s).cols = s.cols := rfl
@[simp] theorem setCursor_rows (c r : Nat) (s : State) : (State.setCursor c r s).rows = s.rows := rfl
@[simp] theorem setCursor_ccol (c r : Nat) (s : State) : (State.setCursor c r s).ccol = reg c := rfl
@[simp] theorem setCursor_crow (c r : Nat) (s : State) : (State.setCursor c r s).crow = reg r := rfl
@[simp] theorem setCursor_dig (c r : Nat) (s : State) : (State.setCursor c r s).dig = s.dig := rfl
@[simp] theorem setCursor_quad (c r : Nat) (s : State) : (State.setCursor c r s).quad = s.quad := rfl
@[simp] theorem setCursor_mem (c r : Nat) (s : State) : (State.setCursor c r s).mem = s.mem := rfl
@[simp] theorem setCursor_script (c r : Nat) (s : State) : (State.setCursor c r s).script = s.script := rfl
@[simp] theorem setCursor_replies (c r : Nat) (s : State) : (State.setCursor c r s).replies = s.replies := rfl

@[simp] theorem setOdd_config (v : Bool) (s : State) : (State.setOdd v s).config = s.config := rfl
@[simp] theorem setOdd_status (v : Bool) (s : State) : (State.setOdd v s).status = { s.status with odd := v } := rfl
@[simp] theorem setOdd_errcode (v : Bool) (s : State) : (State.setOdd v s).errcode = s.errcode := rfl
@[simp] theorem setOdd_cell (v : Bool) (s : State) : (State.setOdd v s).cell = s.cell := rfl
@[simp] theorem setOdd_lw (v : Bool) (s : State) : (State.setOdd v s).lw = s.lw := rfl
@[simp] theorem setOdd_blen (v : Bool) (s : State) : (State.setOdd v s).blen = s.blen := rfl
@[simp] theorem setOdd_hlen (v : Bool) (s : State) : (State.setOdd v s).hlen = s.hlen := rfl
@[simp] theorem setOdd_imw (v : Bool) (s : State) : (State.setOdd v s).imw = s.imw := rfl
@[simp] theorem setOdd_imh (v : Bool) (s : State) : (State.setOdd v s).imh = s.imh := rfl
@[simp] theorem setOdd_cols (v : Bool) (s : State) : (State.setOdd v s).cols = s.cols := rfl
@[simp] theorem setOdd_rows (v : Bool) (s : State) : (State.setOdd v s).rows = s.rows := rfl
@[simp] theorem setOdd_ccol (v : Bool) (s : State) : (State.setOdd v s).ccol = s.ccol := rfl
@[simp] theorem setOdd_crow (v : Bool) (s : State) : (State.setOdd v s).crow = s.crow := rfl
@[simp] theorem setOdd_dig (v : Bool) (s : State) : (State.setOdd v s).dig = s.dig := rfl
@[simp] theorem setOdd_quad (v : Bool) (s : State) : (State.setOdd v s).quad = s.quad := rfl
@[simp] theorem setOdd_mem (v : Bool) (s : State) : (State.setOdd v s).mem = s.mem := rfl
@[simp] theorem setOdd_script (v : Bool) (s : State) : (State.setOdd v s).script = s.script := rfl
@[simp] theorem setOdd_replies (v : Bool) (s : State) : (State.setOdd v s).replies = s.replies := rfl

@[simp] theorem setEmpty_config (v : Bool) (s : State) : (State.setEmpty v s).config = s.config := rfl
@[simp] theorem setEmpty_status (v : Bool) (s : State) :
    (State.setEmpty v s).status = { s.status with empty := v } := rfl
@[simp] theorem setEmpty_errcode (v : Bool) (s : State) : (State.setEmpty v s).errcode = s.errcode := rfl
@[simp] theorem setEmpty_cell (v : Bool) (s : State) : (State.setEmpty v s).cell = s.cell := rfl
@[simp] theorem setEmpty_lw (v : Bool) (s : State) : (State.setEmpty v s).lw = s.lw := rfl
@[simp] theorem setEmpty_blen (v : Bool) (s : State) : (State.setEmpty v s).blen = s.blen := rfl
@[simp] theorem setEmpty_hlen (v : Bool) (s : State) : (State.setEmpty v s).hlen = s.hlen := rfl
@[simp] theorem setEmpty_imw (v : Bool) (s : State) : (State.setEmpty v s).imw = s.imw := rfl
@[simp] theorem setEmpty_imh (v : Bool) (s : State) : (State.setEmpty v s).imh = s.imh := rfl
@[simp] theorem setEmpty_cols (v : Bool) (s : State) : (State.setEmpty v s).cols = s.cols := rfl
@[simp] theorem setEmpty_rows (v : Bool) (s : State) : (State.setEmpty v s).rows = s.rows := rfl
@[simp] theorem setEmpty_ccol (v : Bool) (s : State) : (State.setEmpty v s).ccol = s.ccol := rfl
@[simp] theorem setEmpty_crow (v : Bool) (s : State) : (State.setEmpty v s).crow = s.crow := rfl
@[simp] theorem setEmpty_dig (v : Bool) (s : State) : (State.setEmpty v s).dig = s.dig := rfl
@[simp] theorem setEmpty_quad (v : Bool) (s : State) : (State.setEmpty v s).quad = s.quad := rfl
@[simp] theorem setEmpty_mem (v : Bool) (s : State) : (State.setEmpty v s).mem = s.mem := rfl
@[simp] theorem setEmpty_script (v : Bool) (s : State) : (State.setEmpty v s).script = s.script := rfl
@[simp] theorem setEmpty_replies (v : Bool) (s : State) : (State.setEmpty v s).replies = s.replies := rfl

@[simp] theorem reply_config (r : HostReply) (s : State) : (State.reply r s).config = s.config := rfl
@[simp] theorem reply_status (r : HostReply) (s : State) : (State.reply r s).status = s.status := rfl
@[simp] theorem reply_errcode (r : HostReply) (s : State) : (State.reply r s).errcode = s.errcode := rfl
@[simp] theorem reply_cell (r : HostReply) (s : State) : (State.reply r s).cell = s.cell := rfl
@[simp] theorem reply_lw (r : HostReply) (s : State) : (State.reply r s).lw = s.lw := rfl
@[simp] theorem reply_blen (r : HostReply) (s : State) : (State.reply r s).blen = s.blen := rfl
@[simp] theorem reply_hlen (r : HostReply) (s : State) : (State.reply r s).hlen = s.hlen := rfl
@[simp] theorem reply_imw (r : HostReply) (s : State) : (State.reply r s).imw = s.imw := rfl
@[simp] theorem reply_imh (r : HostReply) (s : State) : (State.reply r s).imh = s.imh := rfl
@[simp] theorem reply_cols (r : HostReply) (s : State) : (State.reply r s).cols = s.cols := rfl
@[simp] theorem reply_rows (r : HostReply) (s : State) : (State.reply r s).rows = s.rows := rfl
@[simp] theorem reply_ccol (r : HostReply) (s : State) : (State.reply r s).ccol = s.ccol := rfl
@[simp] theorem reply_crow (r : HostReply) (s : State) : (State.reply r s).crow = s.crow := rfl
@[simp] theorem reply_dig (r : HostReply) (s : State) : (State.reply r s).dig = s.dig := rfl
@[simp] theorem reply_quad (r : HostReply) (s : State) : (State.reply r s).quad = s.quad := rfl
@[simp] theorem reply_mem (r : HostReply) (s : State) : (State.reply r s).mem = s.mem := rfl
@[simp] theorem reply_script (r : HostReply) (s : State) : (State.reply r s).script = s.script := rfl
@[simp] theorem reply_replies (r : HostReply) (s : State) : (State.reply r s).replies = r :: s.replies := rfl

@[simp] theorem resetRegisters_config (s : State) : (s.resetRegisters).config = s.config := rfl
@[simp] theorem resetRegisters_status (s : State) : (s.resetRegisters).status = ⟨false, false, false⟩ := rfl
@[simp] theorem resetRegisters_errcode (s : State) : (s.resetRegisters).errcode = 0#3 := rfl
@[simp] theorem resetRegisters_cell (s : State) : (s.resetRegisters).cell = 20#32 := rfl
@[simp] theorem resetRegisters_lw (s : State) : (s.resetRegisters).lw = 2#32 := rfl
@[simp] theorem resetRegisters_blen (s : State) : (s.resetRegisters).blen = 0#32 := rfl
@[simp] theorem resetRegisters_hlen (s : State) : (s.resetRegisters).hlen = 0#32 := rfl
@[simp] theorem resetRegisters_imw (s : State) : (s.resetRegisters).imw = 0#32 := rfl
@[simp] theorem resetRegisters_imh (s : State) : (s.resetRegisters).imh = 0#32 := rfl
@[simp] theorem resetRegisters_cols (s : State) : (s.resetRegisters).cols = 0#32 := rfl
@[simp] theorem resetRegisters_rows (s : State) : (s.resetRegisters).rows = 0#32 := rfl
@[simp] theorem resetRegisters_ccol (s : State) : (s.resetRegisters).ccol = 0#32 := rfl
@[simp] theorem resetRegisters_crow (s : State) : (s.resetRegisters).crow = 0#32 := rfl
@[simp] theorem resetRegisters_dig (s : State) : (s.resetRegisters).dig = 0#4 := rfl
@[simp] theorem resetRegisters_quad (s : State) : (s.resetRegisters).quad = 0#4 := rfl
@[simp] theorem resetRegisters_mem (s : State) : (s.resetRegisters).mem = s.mem := rfl
@[simp] theorem resetRegisters_script (s : State) : (s.resetRegisters).script = s.script := rfl
@[simp] theorem resetRegisters_replies (s : State) : (s.resetRegisters).replies = s.replies := rfl

end Sys2Proof.Machine
end

