-- ==== Sys2Proof/Laws/Bodies.lean ====
section
/-! SUPPORT. The commands' bodies, field by field: what each writes, and that every other field stays. -/

namespace Sys2Proof.Machine

@[simp] theorem d2bBody_config (s : State) : (d2bBody s).config = s.config := rfl
@[simp] theorem d2bBody_status (s : State) : (d2bBody s).status = s.status := rfl
@[simp] theorem d2bBody_errcode (s : State) : (d2bBody s).errcode = s.errcode := rfl
@[simp] theorem d2bBody_cell (s : State) : (d2bBody s).cell = s.cell := rfl
@[simp] theorem d2bBody_lw (s : State) : (d2bBody s).lw = s.lw := rfl
@[simp] theorem d2bBody_blen (s : State) : (d2bBody s).blen = s.blen := rfl
@[simp] theorem d2bBody_hlen (s : State) : (d2bBody s).hlen = s.hlen := rfl
@[simp] theorem d2bBody_imw (s : State) : (d2bBody s).imw = s.imw := rfl
@[simp] theorem d2bBody_imh (s : State) : (d2bBody s).imh = s.imh := rfl
@[simp] theorem d2bBody_cols (s : State) : (d2bBody s).cols = s.cols := rfl
@[simp] theorem d2bBody_rows (s : State) : (d2bBody s).rows = s.rows := rfl
@[simp] theorem d2bBody_ccol (s : State) : (d2bBody s).ccol = s.ccol := rfl
@[simp] theorem d2bBody_crow (s : State) : (d2bBody s).crow = s.crow := rfl
@[simp] theorem d2bBody_dig (s : State) : (d2bBody s).dig = s.dig := rfl
@[simp] theorem d2bBody_quad (s : State) : (d2bBody s).quad = quadReg (digitToBits s.dig) := rfl
@[simp] theorem d2bBody_mem (s : State) : (d2bBody s).mem = s.mem := rfl
@[simp] theorem d2bBody_script (s : State) : (d2bBody s).script = s.script := rfl
@[simp] theorem d2bBody_replies (s : State) : (d2bBody s).replies = s.replies := rfl

@[simp] theorem b2dBody_config (s : State) : (b2dBody s).config = s.config := rfl
@[simp] theorem b2dBody_status (s : State) : (b2dBody s).status = s.status := rfl
@[simp] theorem b2dBody_errcode (s : State) : (b2dBody s).errcode = s.errcode := rfl
@[simp] theorem b2dBody_cell (s : State) : (b2dBody s).cell = s.cell := rfl
@[simp] theorem b2dBody_lw (s : State) : (b2dBody s).lw = s.lw := rfl
@[simp] theorem b2dBody_blen (s : State) : (b2dBody s).blen = s.blen := rfl
@[simp] theorem b2dBody_hlen (s : State) : (b2dBody s).hlen = s.hlen := rfl
@[simp] theorem b2dBody_imw (s : State) : (b2dBody s).imw = s.imw := rfl
@[simp] theorem b2dBody_imh (s : State) : (b2dBody s).imh = s.imh := rfl
@[simp] theorem b2dBody_cols (s : State) : (b2dBody s).cols = s.cols := rfl
@[simp] theorem b2dBody_rows (s : State) : (b2dBody s).rows = s.rows := rfl
@[simp] theorem b2dBody_ccol (s : State) : (b2dBody s).ccol = s.ccol := rfl
@[simp] theorem b2dBody_crow (s : State) : (b2dBody s).crow = s.crow := rfl
@[simp] theorem b2dBody_dig (s : State) : (b2dBody s).dig = bitsToDigit (regQuad s.quad) := rfl
@[simp] theorem b2dBody_quad (s : State) : (b2dBody s).quad = s.quad := rfl
@[simp] theorem b2dBody_mem (s : State) : (b2dBody s).mem = s.mem := rfl
@[simp] theorem b2dBody_script (s : State) : (b2dBody s).script = s.script := rfl
@[simp] theorem b2dBody_replies (s : State) : (b2dBody s).replies = s.replies := rfl

@[simp] theorem b2hBody_config (s : State) : (b2hBody s).config = s.config := rfl
@[simp] theorem b2hBody_status (s : State) : (b2hBody s).status = s.status := rfl
@[simp] theorem b2hBody_errcode (s : State) : (b2hBody s).errcode = s.errcode := rfl
@[simp] theorem b2hBody_cell (s : State) : (b2hBody s).cell = s.cell := rfl
@[simp] theorem b2hBody_lw (s : State) : (b2hBody s).lw = s.lw := rfl
@[simp] theorem b2hBody_blen (s : State) : (b2hBody s).blen = s.blen := rfl
@[simp] theorem b2hBody_hlen (s : State) : (b2hBody s).hlen = reg (2 * s.blen.toNat) := rfl
@[simp] theorem b2hBody_imw (s : State) : (b2hBody s).imw = s.imw := rfl
@[simp] theorem b2hBody_imh (s : State) : (b2hBody s).imh = s.imh := rfl
@[simp] theorem b2hBody_cols (s : State) : (b2hBody s).cols = s.cols := rfl
@[simp] theorem b2hBody_rows (s : State) : (b2hBody s).rows = s.rows := rfl
@[simp] theorem b2hBody_ccol (s : State) : (b2hBody s).ccol = s.ccol := rfl
@[simp] theorem b2hBody_crow (s : State) : (b2hBody s).crow = s.crow := rfl
@[simp] theorem b2hBody_dig (s : State) : (b2hBody s).dig = s.dig := rfl
@[simp] theorem b2hBody_quad (s : State) : (b2hBody s).quad = s.quad := rfl
@[simp] theorem b2hBody_mem (s : State) : (b2hBody s).mem = s.mem.putDigits (expand (s.mem.bytes s.blen.toNat)) := rfl
@[simp] theorem b2hBody_script (s : State) : (b2hBody s).script = s.script := rfl
@[simp] theorem b2hBody_replies (s : State) : (b2hBody s).replies = s.replies := rfl

@[simp] theorem h2bBody_config (s : State) : (h2bBody s).config = s.config := rfl
@[simp] theorem h2bBody_status (s : State) : (h2bBody s).status = { s.status with odd := oddFlag s.hlen.toNat } := rfl
@[simp] theorem h2bBody_errcode (s : State) : (h2bBody s).errcode = s.errcode := rfl
@[simp] theorem h2bBody_cell (s : State) : (h2bBody s).cell = s.cell := rfl
@[simp] theorem h2bBody_lw (s : State) : (h2bBody s).lw = s.lw := rfl
@[simp] theorem h2bBody_blen (s : State) : (h2bBody s).blen = reg (s.hlen.toNat / 2) := rfl
@[simp] theorem h2bBody_hlen (s : State) : (h2bBody s).hlen = s.hlen := rfl
@[simp] theorem h2bBody_imw (s : State) : (h2bBody s).imw = s.imw := rfl
@[simp] theorem h2bBody_imh (s : State) : (h2bBody s).imh = s.imh := rfl
@[simp] theorem h2bBody_cols (s : State) : (h2bBody s).cols = s.cols := rfl
@[simp] theorem h2bBody_rows (s : State) : (h2bBody s).rows = s.rows := rfl
@[simp] theorem h2bBody_ccol (s : State) : (h2bBody s).ccol = s.ccol := rfl
@[simp] theorem h2bBody_crow (s : State) : (h2bBody s).crow = s.crow := rfl
@[simp] theorem h2bBody_dig (s : State) : (h2bBody s).dig = s.dig := rfl
@[simp] theorem h2bBody_quad (s : State) : (h2bBody s).quad = s.quad := rfl
@[simp] theorem h2bBody_mem (s : State) : (h2bBody s).mem = s.mem.putBytes (pair (s.mem.digits s.hlen.toNat)) := rfl
@[simp] theorem h2bBody_script (s : State) : (h2bBody s).script = s.script := rfl
@[simp] theorem h2bBody_replies (s : State) : (h2bBody s).replies = s.replies := rfl

@[simp] theorem layoutBody_config (s : State) : (layoutBody s).config = s.config := rfl
@[simp] theorem layoutBody_status (s : State) :
    (layoutBody s).status = { s.status with empty := emptyFlag s.hlen.toNat } := rfl
@[simp] theorem layoutBody_errcode (s : State) : (layoutBody s).errcode = s.errcode := rfl
@[simp] theorem layoutBody_cell (s : State) : (layoutBody s).cell = s.cell := rfl
@[simp] theorem layoutBody_lw (s : State) : (layoutBody s).lw = s.lw := rfl
@[simp] theorem layoutBody_blen (s : State) : (layoutBody s).blen = s.blen := rfl
@[simp] theorem layoutBody_hlen (s : State) : (layoutBody s).hlen = s.hlen := rfl
@[simp] theorem layoutBody_imw (s : State) : (layoutBody s).imw = reg (max 1 s.hlen.toNat * s.cell.toNat) := rfl
@[simp] theorem layoutBody_imh (s : State) : (layoutBody s).imh = reg s.cell.toNat := rfl
@[simp] theorem layoutBody_cols (s : State) : (layoutBody s).cols = reg (max 1 s.hlen.toNat) := rfl
@[simp] theorem layoutBody_rows (s : State) : (layoutBody s).rows = reg 1 := rfl
@[simp] theorem layoutBody_ccol (s : State) : (layoutBody s).ccol = reg 0 := rfl
@[simp] theorem layoutBody_crow (s : State) : (layoutBody s).crow = reg 0 := rfl
@[simp] theorem layoutBody_dig (s : State) : (layoutBody s).dig = s.dig := rfl
@[simp] theorem layoutBody_quad (s : State) : (layoutBody s).quad = s.quad := rfl
@[simp] theorem layoutBody_mem (s : State) :
    (layoutBody s).mem = s.mem.paint 0 (max 1 s.hlen.toNat * s.cell.toNat) s.cell.toNat (fun _ _ => true) Pixel.black := rfl
@[simp] theorem layoutBody_script (s : State) : (layoutBody s).script = s.script := rfl
@[simp] theorem layoutBody_replies (s : State) : (layoutBody s).replies = s.replies := rfl

@[simp] theorem drawcBody_config (s : State) : (drawcBody s).config = s.config := rfl
@[simp] theorem drawcBody_status (s : State) : (drawcBody s).status = s.status := rfl
@[simp] theorem drawcBody_errcode (s : State) : (drawcBody s).errcode = s.errcode := rfl
@[simp] theorem drawcBody_cell (s : State) : (drawcBody s).cell = s.cell := rfl
@[simp] theorem drawcBody_lw (s : State) : (drawcBody s).lw = s.lw := rfl
@[simp] theorem drawcBody_blen (s : State) : (drawcBody s).blen = s.blen := rfl
@[simp] theorem drawcBody_hlen (s : State) : (drawcBody s).hlen = s.hlen := rfl
@[simp] theorem drawcBody_imw (s : State) : (drawcBody s).imw = s.imw := rfl
@[simp] theorem drawcBody_imh (s : State) : (drawcBody s).imh = s.imh := rfl
@[simp] theorem drawcBody_cols (s : State) : (drawcBody s).cols = s.cols := rfl
@[simp] theorem drawcBody_rows (s : State) : (drawcBody s).rows = s.rows := rfl
@[simp] theorem drawcBody_ccol (s : State) : (drawcBody s).ccol = reg (s.ccol.toNat + 1) := rfl
@[simp] theorem drawcBody_crow (s : State) : (drawcBody s).crow = s.crow := rfl
@[simp] theorem drawcBody_dig (s : State) : (drawcBody s).dig = s.mem.digitAt s.ccol.toNat := rfl
@[simp] theorem drawcBody_quad (s : State) :
    (drawcBody s).quad = quadReg (digitToBits (s.mem.digitAt s.ccol.toNat)) := rfl
@[simp] theorem drawcBody_mem (s : State) :
    (drawcBody s).mem = drawCell s.ccol.toNat (s.mem.digitAt s.ccol.toNat) s := rfl
@[simp] theorem drawcBody_script (s : State) : (drawcBody s).script = s.script := rfl
@[simp] theorem drawcBody_replies (s : State) : (drawcBody s).replies = s.replies := rfl

@[simp] theorem gridBody_config (s : State) : (gridBody s).config = s.config := rfl
@[simp] theorem gridBody_status (s : State) : (gridBody s).status = s.status := rfl
@[simp] theorem gridBody_errcode (s : State) : (gridBody s).errcode = s.errcode := rfl
@[simp] theorem gridBody_cell (s : State) : (gridBody s).cell = s.cell := rfl
@[simp] theorem gridBody_lw (s : State) : (gridBody s).lw = s.lw := rfl
@[simp] theorem gridBody_blen (s : State) : (gridBody s).blen = s.blen := rfl
@[simp] theorem gridBody_hlen (s : State) : (gridBody s).hlen = reg 0 := rfl
@[simp] theorem gridBody_imw (s : State) : (gridBody s).imw = s.imw := rfl
@[simp] theorem gridBody_imh (s : State) : (gridBody s).imh = s.imh := rfl
@[simp] theorem gridBody_cols (s : State) : (gridBody s).cols = reg s.gridCols := rfl
@[simp] theorem gridBody_rows (s : State) : (gridBody s).rows = reg s.gridRows := rfl
@[simp] theorem gridBody_ccol (s : State) : (gridBody s).ccol = reg 0 := rfl
@[simp] theorem gridBody_crow (s : State) : (gridBody s).crow = reg 0 := rfl
@[simp] theorem gridBody_dig (s : State) : (gridBody s).dig = s.dig := rfl
@[simp] theorem gridBody_quad (s : State) : (gridBody s).quad = s.quad := rfl
@[simp] theorem gridBody_mem (s : State) : (gridBody s).mem = s.mem := rfl
@[simp] theorem gridBody_script (s : State) : (gridBody s).script = s.script := rfl
@[simp] theorem gridBody_replies (s : State) : (gridBody s).replies = s.replies := rfl

@[simp] theorem advance_config (s : State) : (s.advance).config = s.config := by
  unfold State.advance; split <;> rfl
@[simp] theorem advance_status (s : State) : (s.advance).status = s.status := by
  unfold State.advance; split <;> rfl
@[simp] theorem advance_errcode (s : State) : (s.advance).errcode = s.errcode := by
  unfold State.advance; split <;> rfl
@[simp] theorem advance_cell (s : State) : (s.advance).cell = s.cell := by
  unfold State.advance; split <;> rfl
@[simp] theorem advance_lw (s : State) : (s.advance).lw = s.lw := by
  unfold State.advance; split <;> rfl
@[simp] theorem advance_blen (s : State) : (s.advance).blen = s.blen := by
  unfold State.advance; split <;> rfl
@[simp] theorem advance_hlen (s : State) : (s.advance).hlen = s.hlen := by
  unfold State.advance; split <;> rfl
@[simp] theorem advance_imw (s : State) : (s.advance).imw = s.imw := by
  unfold State.advance; split <;> rfl
@[simp] theorem advance_imh (s : State) : (s.advance).imh = s.imh := by
  unfold State.advance; split <;> rfl
@[simp] theorem advance_cols (s : State) : (s.advance).cols = s.cols := by
  unfold State.advance; split <;> rfl
@[simp] theorem advance_rows (s : State) : (s.advance).rows = s.rows := by
  unfold State.advance; split <;> rfl
@[simp] theorem advance_ccol (s : State) :
    (s.advance).ccol = if s.ccol.toNat + 1 < s.cols.toNat then reg (s.ccol.toNat + 1) else reg 0 := by
  unfold State.advance; split <;> rfl
@[simp] theorem advance_crow (s : State) :
    (s.advance).crow = if s.ccol.toNat + 1 < s.cols.toNat then reg s.crow.toNat else reg (s.crow.toNat + 1) := by
  unfold State.advance; split <;> rfl
@[simp] theorem advance_dig (s : State) : (s.advance).dig = s.dig := by
  unfold State.advance; split <;> rfl
@[simp] theorem advance_quad (s : State) : (s.advance).quad = s.quad := by
  unfold State.advance; split <;> rfl
@[simp] theorem advance_mem (s : State) : (s.advance).mem = s.mem := by
  unfold State.advance; split <;> rfl
@[simp] theorem advance_script (s : State) : (s.advance).script = s.script := by
  unfold State.advance; split <;> rfl
@[simp] theorem advance_replies (s : State) : (s.advance).replies = s.replies := by
  unfold State.advance; split <;> rfl

@[simp] theorem probecBody_config (s : State) : (probecBody s).config = s.config := advance_config _
@[simp] theorem probecBody_status (s : State) : (probecBody s).status = s.status := advance_status _
@[simp] theorem probecBody_errcode (s : State) : (probecBody s).errcode = s.errcode := advance_errcode _
@[simp] theorem probecBody_cell (s : State) : (probecBody s).cell = s.cell := advance_cell _
@[simp] theorem probecBody_lw (s : State) : (probecBody s).lw = s.lw := advance_lw _
@[simp] theorem probecBody_blen (s : State) : (probecBody s).blen = s.blen := advance_blen _
@[simp] theorem probecBody_hlen (s : State) : (probecBody s).hlen = reg (s.hlen.toNat + 1) := advance_hlen _
@[simp] theorem probecBody_imw (s : State) : (probecBody s).imw = s.imw := advance_imw _
@[simp] theorem probecBody_imh (s : State) : (probecBody s).imh = s.imh := advance_imh _
@[simp] theorem probecBody_cols (s : State) : (probecBody s).cols = s.cols := advance_cols _
@[simp] theorem probecBody_rows (s : State) : (probecBody s).rows = s.rows := advance_rows _
@[simp] theorem probecBody_ccol (s : State) :
    (probecBody s).ccol = if s.ccol.toNat + 1 < s.cols.toNat then reg (s.ccol.toNat + 1) else reg 0 := advance_ccol _
@[simp] theorem probecBody_crow (s : State) :
    (probecBody s).crow = if s.ccol.toNat + 1 < s.cols.toNat then reg s.crow.toNat else reg (s.crow.toNat + 1) := advance_crow _
@[simp] theorem probecBody_dig (s : State) : (probecBody s).dig = bitsToDigit s.probedQuad := advance_dig _
@[simp] theorem probecBody_quad (s : State) : (probecBody s).quad = quadReg s.probedQuad := advance_quad _
@[simp] theorem probecBody_mem (s : State) :
    (probecBody s).mem = s.mem.setDigit s.hlen.toNat (bitsToDigit s.probedQuad) := advance_mem _
@[simp] theorem probecBody_script (s : State) : (probecBody s).script = s.script := advance_script _
@[simp] theorem probecBody_replies (s : State) : (probecBody s).replies = s.replies := advance_replies _

end Sys2Proof.Machine
end

