-- ==== Sys2Proof/Laws/Buffer.lean ====
section
/-! SUPPORT. One buffer: what a read returns after each operation, and that each operation keeps the one
canonical form. The read laws hold of every list, canonical or not. -/

namespace Sys2Proof.Machine

variable {α : Type}

@[simp] theorem bufRead_nil (d : α) (k : Nat) : bufRead d [] k = d := rfl

/-- A read is a look-up that answers `d` for an unlisted index. -/
theorem bufRead_eq_lookup (d : α) (m : Buffer α) (k : Nat) : bufRead d m k = (m.lookup k).getD d := by
  induction m with
  | nil => rfl
  | cons e m ih =>
    obtain ⟨j, v⟩ := e
    by_cases h : k = j
    · simp [bufRead, List.lookup, h]
    · have : (k == j) = false := by simpa using h
      simp [bufRead, List.lookup, h, this, ih]

theorem lookup_filter_key (p : Nat → Bool) (m : Buffer α) (k : Nat) :
    (m.filter fun e => p e.1).lookup k = if p k then m.lookup k else none := by
  induction m with
  | nil => simp
  | cons e m ih =>
    obtain ⟨j, v⟩ := e
    by_cases h : k = j
    · subst h
      by_cases hp : p k <;> simp [hp, ih]
    · have hb : (k == j) = false := by simpa using h
      by_cases hp : p j <;> simp [hp, List.lookup_cons, hb, ih]

theorem lookup_bufInsert (m : Buffer α) (k j : Nat) (v : α) (hk : m.lookup k = none) :
    (bufInsert m k v).lookup j = if j = k then some v else m.lookup j := by
  induction m with
  | nil =>
    by_cases h : j = k
    · simp [bufInsert, h]
    · have hb : (j == k) = false := by simpa using h
      simp [bufInsert, List.lookup_cons, hb, h]
  | cons e m ih =>
    obtain ⟨i, u⟩ := e
    have hki : (k == i) = false := by
      cases hc : k == i with
      | false => rfl
      | true => simp [List.lookup_cons, hc] at hk
    have hk' : m.lookup k = none := by simpa [List.lookup_cons, hki] using hk
    have hne : k ≠ i := by simpa using hki
    unfold bufInsert
    split
    · by_cases h : j = k
      · simp [h]
      · have hb : (j == k) = false := by simpa using h
        simp [List.lookup_cons, hb, h]
    · by_cases h : j = k
      · subst h
        simp [List.lookup_cons, hki, ih hk']
      · simp [List.lookup_cons, ih hk', h]

section Write
variable [DecidableEq α]

/-- Read after write: the written element has the new value, every other element its old one. -/
theorem bufRead_bufWrite (d : α) (m : Buffer α) (k j : Nat) (v : α) :
    bufRead d (bufWrite d m k v) j = if j = k then v else bufRead d m j := by
  have herase : ∀ i, (bufErase m k).lookup i = if i = k then none else m.lookup i := by
    intro i
    have := lookup_filter_key (fun n => n != k) m i
    by_cases h : i = k
    · subst h; simpa [bufErase] using this
    · simpa [bufErase, h] using this
  by_cases hv : v = d
  · by_cases h : j = k <;> simp [bufWrite, hv, bufRead_eq_lookup, herase, h]
  · have hk : (bufErase m k).lookup k = none := by simp [herase]
    by_cases h : j = k <;> simp [bufWrite, hv, bufRead_eq_lookup, lookup_bufInsert _ _ _ _ hk, herase, h]

theorem lookup_updated (d : α) (g : Nat → α) (k n j : Nat) :
    ((List.range n).filterMap fun i => if g i = d then none else some (k + i, g i)).lookup j =
      if k ≤ j ∧ j < k + n then (if g (j - k) = d then none else some (g (j - k))) else none := by
  induction n with
  | zero => simp
  | succ n ih =>
    rw [List.range_succ, List.filterMap_append, List.lookup_append, ih]
    by_cases h1 : j = k + n
    · subst h1
      by_cases hg : g n = d <;> simp [hg]
    · have hb : (j == k + n) = false := by simpa using h1
      have htail : (List.filterMap (fun i => if g i = d then none else some (k + i, g i)) [n]).lookup j = none := by
        by_cases hg : g n = d <;> simp [hg, List.lookup_cons, hb]
      rw [htail, Option.or_none]
      by_cases h2 : k ≤ j ∧ j < k + n
      · have h3 : k ≤ j ∧ j < k + (n + 1) := by omega
        rw [if_pos h2, if_pos h3]
      · have h3 : ¬(k ≤ j ∧ j < k + (n + 1)) := by omega
        rw [if_neg h2, if_neg h3]

/-- What a bulk update does to a read: an element of the range is replaced, every other one stays. -/
theorem bufRead_bufUpdate (d : α) (m : Buffer α) (k n : Nat) (f : Nat → α → α) (j : Nat) :
    bufRead d (bufUpdate d m k n f) j =
      if k ≤ j ∧ j < k + n then f (j - k) (bufRead d m j) else bufRead d m j := by
  have hlo := lookup_filter_key (fun i => decide (i < k)) m j
  have hhi := lookup_filter_key (fun i => decide (k + n ≤ i)) m j
  have hmid := lookup_updated d (fun i => f i (bufRead d m (k + i))) k n j
  rw [bufRead_eq_lookup, bufUpdate, List.lookup_append, List.lookup_append, hlo, hmid, hhi]
  by_cases h1 : j < k
  · have h2 : ¬(k ≤ j ∧ j < k + n) := by omega
    have h3 : ¬(k + n ≤ j) := by omega
    simp [h1, h2, h3, bufRead_eq_lookup]
  · by_cases h3 : k + n ≤ j
    · have h2 : ¬(k ≤ j ∧ j < k + n) := by omega
      simp [h1, h2, h3, bufRead_eq_lookup]
    · have h2 : k ≤ j ∧ j < k + n := by omega
      have h4 : k + (j - k) = j := by omega
      simp only [h1, h2, h3, h4, and_self, decide_false, if_true, if_false, Bool.false_eq_true, Option.none_or]
      by_cases hg : f (j - k) (bufRead d m j) = d
      · simp [hg]
      · simp [hg]

/-- What a run of writes from index 0 does to a read. -/
theorem bufRead_bufPut (d : α) (m : Buffer α) (vs : List α) (j : Nat) :
    bufRead d (bufPut d m vs) j = if j < vs.length then vs.getD j d else bufRead d m j := by
  simp [bufPut, bufRead_bufUpdate]

end Write

@[simp] theorem length_bufTake (d : α) (m : Buffer α) (n : Nat) : (bufTake d m n).length = n := by
  simp [bufTake]

/-- The valid part, element by element. -/
theorem getD_bufTake (d e : α) (m : Buffer α) (n k : Nat) (h : k < n) :
    (bufTake d m n).getD k e = bufRead d m k := by
  simp [bufTake, List.getD_eq_getElem?_getD, h]

/-! ## The canonical form -/

theorem bufWf_nil (d : α) : bufWf d [] := ⟨List.Pairwise.nil, fun _ h => absurd h List.not_mem_nil⟩

theorem bufWf_filter (d : α) (m : Buffer α) (p : Nat × α → Bool) (h : bufWf d m) : bufWf d (m.filter p) :=
  ⟨h.1.filter p, fun e he => h.2 e (List.mem_filter.1 he).1⟩

theorem mem_bufInsert {m : Buffer α} {k : Nat} {v : α} {e : Nat × α} :
    e ∈ bufInsert m k v ↔ e = (k, v) ∨ e ∈ m := by
  induction m with
  | nil => simp [bufInsert]
  | cons a m ih =>
    obtain ⟨j, u⟩ := a
    unfold bufInsert
    split
    · simp
    · simp only [List.mem_cons, ih]; tauto

theorem bufInsert_pairwise (m : Buffer α) (k : Nat) (v : α) (hm : m.Pairwise (fun a b => a.1 < b.1))
    (hk : ∀ e ∈ m, e.1 ≠ k) : (bufInsert m k v).Pairwise (fun a b => a.1 < b.1) := by
  induction m with
  | nil => simp [bufInsert]
  | cons a m ih =>
    obtain ⟨j, u⟩ := a
    rw [List.pairwise_cons] at hm
    unfold bufInsert
    split
    · rename_i hlt
      refine List.pairwise_cons.2 ⟨?_, List.pairwise_cons.2 hm⟩
      intro e he
      rcases List.mem_cons.1 he with rfl | he
      · exact hlt
      · exact Nat.lt_trans hlt (hm.1 e he)
    · rename_i hlt
      have hjk : j ≠ k := hk (j, u) (by simp)
      refine List.pairwise_cons.2 ⟨?_, ih hm.2 fun e he => hk e (List.mem_cons_of_mem _ he)⟩
      intro e he
      rcases mem_bufInsert.1 he with rfl | he
      · show j < k; omega
      · exact hm.1 e he

section Wf
variable [DecidableEq α]

theorem mem_bufWrite {d : α} {m : Buffer α} {k : Nat} {v : α} {e : Nat × α} (h : e ∈ bufWrite d m k v) :
    e ∈ m ∨ (v ≠ d ∧ e = (k, v)) := by
  unfold bufWrite at h
  split at h
  · exact .inl (List.mem_filter.1 h).1
  · rename_i hv
    rcases mem_bufInsert.1 h with rfl | h
    · exact .inr ⟨hv, rfl⟩
    · exact .inl (List.mem_filter.1 h).1

theorem bufWf_bufWrite (d : α) (m : Buffer α) (k : Nat) (v : α) (h : bufWf d m) : bufWf d (bufWrite d m k v) := by
  have he : bufWf d (bufErase m k) := bufWf_filter d m _ h
  unfold bufWrite
  split
  · exact he
  · rename_i hv
    refine ⟨bufInsert_pairwise _ _ _ he.1 ?_, ?_⟩
    · intro e hmem
      have := (List.mem_filter.1 hmem).2
      simpa using this
    · intro e hmem
      rcases mem_bufInsert.1 hmem with rfl | hmem
      · exact hv
      · exact he.2 e hmem

theorem mem_updated {d : α} {g : Nat → α} {k n : Nat} {e : Nat × α} :
    e ∈ (List.range n).filterMap (fun i => if g i = d then none else some (k + i, g i)) ↔
      ∃ i < n, g i ≠ d ∧ e = (k + i, g i) := by
  simp only [List.mem_filterMap, List.mem_range]
  constructor
  · rintro ⟨i, hi, h⟩
    by_cases hg : g i = d
    · simp [hg] at h
    · exact ⟨i, hi, hg, by simpa [hg] using h.symm⟩
  · rintro ⟨i, hi, hg, rfl⟩
    exact ⟨i, hi, by simp [hg]⟩

theorem updated_pairwise (d : α) (g : Nat → α) (k n : Nat) :
    ((List.range n).filterMap fun i => if g i = d then none else some (k + i, g i)).Pairwise
      (fun a b => a.1 < b.1) := by
  rw [List.pairwise_filterMap]
  refine List.Pairwise.imp ?_ List.pairwise_lt_range
  intro a b hab x hx y hy
  by_cases ha : g a = d
  · simp [ha] at hx
  · by_cases hb : g b = d
    · simp [hb] at hy
    · simp [ha] at hx; simp [hb] at hy
      subst hx; subst hy
      show k + a < k + b; omega

theorem mem_bufUpdate {d : α} {m : Buffer α} {k n : Nat} {f : Nat → α → α} {e : Nat × α} :
    e ∈ bufUpdate d m k n f ↔
      (e ∈ m ∧ e.1 < k) ∨
        (∃ i < n, f i (bufRead d m (k + i)) ≠ d ∧ e = (k + i, f i (bufRead d m (k + i)))) ∨
        (e ∈ m ∧ k + n ≤ e.1) := by
  unfold bufUpdate
  rw [List.mem_append, List.mem_append, mem_updated (g := fun i => f i (bufRead d m (k + i))),
    List.mem_filter, List.mem_filter, or_assoc]
  simp

theorem bufWf_bufUpdate (d : α) (m : Buffer α) (k n : Nat) (f : Nat → α → α) (h : bufWf d m) :
    bufWf d (bufUpdate d m k n f) := by
  refine ⟨?_, ?_⟩
  · unfold bufUpdate
    refine List.pairwise_append.2 ⟨List.pairwise_append.2
      ⟨h.1.filter _, updated_pairwise d (fun i => f i (bufRead d m (k + i))) k n, ?_⟩, h.1.filter _, ?_⟩
    · intro a ha b hb
      have h1 : a.1 < k := by simpa using (List.mem_filter.1 ha).2
      obtain ⟨i, _, _, rfl⟩ := (mem_updated (g := fun i => f i (bufRead d m (k + i)))).1 hb
      show a.1 < k + i; omega
    · intro a ha b hb
      have h2 : k + n ≤ b.1 := by simpa using (List.mem_filter.1 hb).2
      rcases List.mem_append.1 ha with ha | ha
      · have h1 : a.1 < k := by simpa using (List.mem_filter.1 ha).2
        omega
      · obtain ⟨i, hi, _, rfl⟩ := (mem_updated (g := fun i => f i (bufRead d m (k + i)))).1 ha
        show k + i < b.1; omega
  · intro e he
    rcases mem_bufUpdate.1 he with ⟨he, _⟩ | ⟨i, _, hne, rfl⟩ | ⟨he, _⟩
    · exact h.2 e he
    · exact hne
    · exact h.2 e he

theorem bufWf_bufPut (d : α) (m : Buffer α) (vs : List α) (h : bufWf d m) : bufWf d (bufPut d m vs) :=
  bufWf_bufUpdate d m _ _ _ h

/-! ## Indices -/

theorem bufBelow_bufWrite (d : α) (m : Buffer α) (n k : Nat) (v : α) (h : bufBelow n m) (hk : k < n) :
    bufBelow n (bufWrite d m k v) := by
  have he : bufBelow n (bufErase m k) := fun e he => h e (List.mem_filter.1 he).1
  unfold bufWrite
  split
  · exact he
  · intro e hmem
    rcases mem_bufInsert.1 hmem with rfl | hmem
    · exact hk
    · exact he e hmem

theorem bufBelow_bufUpdate (d : α) (m : Buffer α) (b k n : Nat) (f : Nat → α → α) (h : bufBelow b m)
    (hk : ∀ i < n, f i (bufRead d m (k + i)) ≠ d → k + i < b) : bufBelow b (bufUpdate d m k n f) := by
  intro e he
  rcases mem_bufUpdate.1 he with ⟨he, _⟩ | ⟨i, hi, hne, rfl⟩ | ⟨he, _⟩
  · exact h e he
  · exact hk i hi hne
  · exact h e he

theorem bufBelow_bufPut (d : α) (m : Buffer α) (b : Nat) (vs : List α) (h : bufBelow b m) (hl : vs.length ≤ b) :
    bufBelow b (bufPut d m vs) := by
  refine bufBelow_bufUpdate d m b 0 _ _ h fun i hi _ => ?_
  omega

end Wf

theorem bufRead_of_mem (d : α) (m : Buffer α) (h : m.Pairwise (fun a b => a.1 < b.1)) {e : Nat × α}
    (he : e ∈ m) : bufRead d m e.1 = e.2 := by
  induction m with
  | nil => simp at he
  | cons a m ih =>
    obtain ⟨j, u⟩ := a
    rw [List.pairwise_cons] at h
    rcases List.mem_cons.1 he with rfl | he'
    · simp [bufRead]
    · have : j < e.1 := h.1 e he'
      simp [bufRead, Nat.ne_of_gt this, ih h.2 he']

theorem mem_of_bufRead_ne (d : α) (m : Buffer α) {k : Nat} (h : bufRead d m k ≠ d) : (k, bufRead d m k) ∈ m := by
  induction m with
  | nil => simp at h
  | cons a m ih =>
    obtain ⟨j, u⟩ := a
    by_cases hk : k = j
    · simp [bufRead, hk]
    · simp only [bufRead, hk, if_false] at h ⊢
      exact List.mem_cons_of_mem _ (ih h)

/-- Two canonical lists with the same reads are the same list. -/
theorem eq_of_bufRead_eq (d : α) (m m' : Buffer α) (h : bufWf d m) (h' : bufWf d m')
    (heq : ∀ k, bufRead d m k = bufRead d m' k) : m = m' := by
  have mem_iff : ∀ e, e ∈ m ↔ e ∈ m' := by
    intro e
    constructor
    · intro he
      have h1 := bufRead_of_mem d m h.1 he
      have h2 : bufRead d m' e.1 = e.2 := by rw [← heq, h1]
      have := mem_of_bufRead_ne d m' (k := e.1) (by rw [h2]; exact h.2 e he)
      rwa [h2] at this
    · intro he
      have h1 := bufRead_of_mem d m' h'.1 he
      have h2 : bufRead d m e.1 = e.2 := by rw [heq, h1]
      have := mem_of_bufRead_ne d m (k := e.1) (by rw [h2]; exact h'.2 e he)
      rwa [h2] at this
  have nodup : ∀ l : Buffer α, l.Pairwise (fun a b => a.1 < b.1) → l.Nodup := fun l hl =>
    hl.imp fun {a b} hab heq => by subst heq; exact Nat.lt_irrefl _ hab
  have hperm : m.Perm m' := (List.perm_ext_iff_of_nodup (nodup m h.1) (nodup m' h'.1)).2 mem_iff
  exact hperm.eq_of_pairwise (fun a b _ _ hab hba => absurd hab (Nat.lt_asymm hba)) h.1 h'.1

end Sys2Proof.Machine
end

