-- ==== Sys2Proof/Laws/Codec.lean ====
section
/-! SUPPORT. The cell codec and the byte glue as numbers: the functions' small lemmas. -/

namespace Sys2Proof.Machine

/-! ## Flags and digits -/

@[simp] theorem quadReg_digitToBits (d : Digit) : quadReg (digitToBits d) = d := by
  revert d; decide

theorem bitsToDigit_eq_quadReg (q : Quad) : bitsToDigit q = quadReg q := by
  obtain ⟨a, b, c, d⟩ := q
  revert a b c d; decide

@[simp] theorem digitToBits_bitsToDigit (q : Quad) : digitToBits (bitsToDigit q) = q := by
  obtain ⟨a, b, c, d⟩ := q
  revert a b c d; decide

@[simp] theorem getLsbD_bitsToDigit_3 (q : Quad) : (bitsToDigit q).getLsbD 3 = q.backslash := by
  obtain ⟨a, b, c, d⟩ := q
  revert a b c d; decide

@[simp] theorem getLsbD_bitsToDigit_2 (q : Quad) : (bitsToDigit q).getLsbD 2 = q.slash := by
  obtain ⟨a, b, c, d⟩ := q
  revert a b c d; decide

@[simp] theorem getLsbD_bitsToDigit_1 (q : Quad) : (bitsToDigit q).getLsbD 1 = q.vertical := by
  obtain ⟨a, b, c, d⟩ := q
  revert a b c d; decide

@[simp] theorem getLsbD_bitsToDigit_0 (q : Quad) : (bitsToDigit q).getLsbD 0 = q.horizontal := by
  obtain ⟨a, b, c, d⟩ := q
  revert a b c d; decide

/-! ## Nibbles and bytes -/

theorem toNat_hiDigit (b : Byte) : (hiDigit b).toNat = b.toNat / 16 := by
  revert b; decide

theorem toNat_loDigit (b : Byte) : (loDigit b).toNat = b.toNat % 16 := by
  revert b; decide

theorem toNat_joinDigits (d1 d2 : Digit) : (joinDigits d1 d2).toNat = 16 * d1.toNat + d2.toNat := by
  revert d1 d2; decide

@[simp] theorem joinDigits_hi_lo (b : Byte) : joinDigits (hiDigit b) (loDigit b) = b := by
  revert b; decide

@[simp] theorem hiDigit_join (d1 d2 : Digit) : hiDigit (joinDigits d1 d2) = d1 := by
  revert d1 d2; decide

@[simp] theorem loDigit_join (d1 d2 : Digit) : loDigit (joinDigits d1 d2) = d2 := by
  revert d1 d2; decide

/-! ## The two list functions -/

@[simp] theorem length_expand (bs : List Byte) : (expand bs).length = 2 * bs.length := by
  induction bs with
  | nil => rfl
  | cons b bs ih => simp only [expand, List.length_cons, ih]; omega

/-- `hs[2k]` of R65. -/
theorem getElem?_expand_even (bs : List Byte) (k : Nat) : (expand bs)[2 * k]? = (bs[k]?).map hiDigit := by
  induction bs generalizing k with
  | nil => simp [expand]
  | cons b bs ih =>
    cases k with
    | zero => simp [expand]
    | succ k => simpa [expand, Nat.mul_succ] using ih k

/-- `hs[2k+1]` of R65. -/
theorem getElem?_expand_odd (bs : List Byte) (k : Nat) : (expand bs)[2 * k + 1]? = (bs[k]?).map loDigit := by
  induction bs generalizing k with
  | nil => simp [expand]
  | cons b bs ih =>
    cases k with
    | zero => simp [expand]
    | succ k => simpa [expand, Nat.mul_succ] using ih k

/-- Two elements at a time: the recursion of `pair`. -/
theorem pair_induction {P : List Digit → Prop} (h0 : P []) (h1 : ∀ d, P [d])
    (h2 : ∀ d1 d2 hs, P hs → P (d1 :: d2 :: hs)) : ∀ hs, P hs
  | [] => h0
  | [d] => h1 d
  | d1 :: d2 :: hs => h2 d1 d2 hs (pair_induction h0 h1 h2 hs)

@[simp] theorem length_pair (hs : List Digit) : (pair hs).length = hs.length / 2 := by
  induction hs using pair_induction with
  | h0 => rfl
  | h1 d => simp [pair]
  | h2 d1 d2 hs ih => simp only [pair, List.length_cons, ih]; omega

/-- `bs[k]` of R66. -/
theorem getElem?_pair (hs : List Digit) (k : Nat) (h : 2 * k + 1 < hs.length) :
    (pair hs)[k]? = some (joinDigits (hs[2 * k]'(by omega)) hs[2 * k + 1]) := by
  induction hs using pair_induction generalizing k with
  | h0 => simp at h
  | h1 d => simp at h
  | h2 d1 d2 hs ih =>
    cases k with
    | zero => simp [pair]
    | succ k =>
      have hk : 2 * k + 1 < hs.length := by simp [Nat.mul_succ] at h; omega
      simpa [pair, Nat.mul_succ] using ih k hk

end Sys2Proof.Machine
end

