-- ==== Sys2Proof/Laws/Command.lean ====
section
/-! SUPPORT. What a command can do, said once: the acceptance test, the checks and the body; and `exec` by its
check and body. Later proofs cite these and unfold neither `command` nor `exec`. -/

namespace Sys2Proof.Machine

theorem accept_of_err {run : State → Result} {s : State} (h : s.status.err = true) : accept run s = .next s := by
  simp [accept, h]

theorem accept_of_ok {run : State → Result} {s : State} (h : s.status.err = false) : accept run s = run s := by
  simp [accept, h]

theorem command_of_err {check : State → Option Error} {body : State → State} {s : State}
    (h : s.status.err = true) : command check body s = .next s := accept_of_err h

theorem command_of_raise {check : State → Option Error} {body : State → State} {s : State} {e : Error}
    (h : s.status.err = false) (hc : check s = some e) : command check body s = .next (s.raise e) := by
  simp [command, accept_of_ok h, hc]

theorem command_of_clean {check : State → Option Error} {body : State → State} {s : State}
    (h : s.status.err = false) (hc : check s = none) : command check body s = .next (body s) := by
  simp [command, accept_of_ok h, hc]

/-- Everything a command can do: nothing while an error is latched, its latch if a check fails, its body
otherwise. -/
theorem command_cases {check : State → Option Error} {body : State → State} {s t : State}
    (h : command check body s = .next t) :
    (s.status.err = true ∧ t = s) ∨
      (s.status.err = false ∧ ∃ e, check s = some e ∧ t = s.raise e) ∨
      (s.status.err = false ∧ check s = none ∧ t = body s) := by
  cases he : s.status.err with
  | true =>
    rw [command_of_err he] at h
    exact .inl ⟨rfl, (by injection h with h; exact h.symm)⟩
  | false =>
    cases hc : check s with
    | some e =>
      rw [command_of_raise he hc] at h
      exact .inr (.inl ⟨rfl, e, rfl, (by injection h with h; exact h.symm)⟩)
    | none =>
      rw [command_of_clean he hc] at h
      exact .inr (.inr ⟨rfl, rfl, (by injection h with h; exact h.symm)⟩)

/-! ## `exec` by checks and bodies -/

/-- The check of each command; CLR and SRST have none. -/
def checkOf : Instr → State → Option Error
  | .nop | .d2b | .b2d | .clr | .srst => noCheck
  | .b2h    => b2hCheck
  | .h2b    => h2bCheck
  | .layout => layoutCheck
  | .drawc  => drawcCheck
  | .enc    => encCheck
  | .grid   => gridCheck
  | .probec => probecCheck
  | .dec    => gridCheck

/-- The body of each command. -/
def bodyOf : Instr → State → State
  | .nop    => nopBody
  | .d2b    => d2bBody
  | .b2d    => b2dBody
  | .b2h    => b2hBody
  | .h2b    => h2bBody
  | .layout => layoutBody
  | .drawc  => drawcBody
  | .enc    => encBody
  | .grid   => gridBody
  | .probec => probecBody
  | .dec    => decBody
  | .clr    => State.release
  | .srst   => State.resetRegisters

theorem exec_eq_command {i : Instr} (hc : i ≠ .clr) (hs : i ≠ .srst) (s : State) :
    exec i s = command (checkOf i) (bodyOf i) s := by
  cases i <;> first | rfl | contradiction

@[simp] theorem exec_clr (s : State) : exec .clr s = .next s.release := rfl
@[simp] theorem exec_srst (s : State) : exec .srst s = .next s.resetRegisters := rfl

/-- Everything `exec` can do. -/
theorem exec_cases {i : Instr} {s t : State} (h : exec i s = .next t) :
    (i ≠ .clr ∧ i ≠ .srst ∧ s.status.err = true ∧ t = s) ∨
      (i ≠ .clr ∧ i ≠ .srst ∧ s.status.err = false ∧ ∃ e, checkOf i s = some e ∧ t = s.raise e) ∨
      ((i = .clr ∨ i = .srst ∨ s.status.err = false) ∧ checkOf i s = none ∧ t = bodyOf i s) := by
  by_cases hc : i = .clr
  · subst hc; exact .inr (.inr ⟨.inl rfl, rfl, (by injection h with h; exact h.symm)⟩)
  by_cases hs : i = .srst
  · subst hs; exact .inr (.inr ⟨.inr (.inl rfl), rfl, (by injection h with h; exact h.symm)⟩)
  rw [exec_eq_command hc hs] at h
  rcases command_cases h with ⟨he, ht⟩ | ⟨he, e, hck, ht⟩ | ⟨he, hck, ht⟩
  · exact .inl ⟨hc, hs, he, ht⟩
  · exact .inr (.inl ⟨hc, hs, he, e, hck, ht⟩)
  · exact .inr (.inr ⟨.inr (.inr he), hck, ht⟩)

/-- A command whose check passes runs its body. -/
theorem exec_of_clean {i : Instr} {s : State} (he : s.status.err = false) (hck : checkOf i s = none) :
    exec i s = .next (bodyOf i s) := by
  by_cases hc : i = .clr
  · subst hc; rfl
  by_cases hs : i = .srst
  · subst hs; rfl
  rw [exec_eq_command hc hs, command_of_clean he hck]

/-- A command whose check fails latches its error. -/
theorem exec_of_raise {i : Instr} {s : State} {e : Error} (he : s.status.err = false)
    (hck : checkOf i s = some e) : exec i s = .next (s.raise e) := by
  have hc : i ≠ .clr := by rintro rfl; exact absurd hck (by simp [checkOf, noCheck])
  have hs : i ≠ .srst := by rintro rfl; exact absurd hck (by simp [checkOf, noCheck])
  rw [exec_eq_command hc hs, command_of_raise he hck]

/-- The errors a check answers are those with the codes 2, 3 and 4. -/
theorem checkOf_error {i : Instr} {s : State} {e : Error} (h : checkOf i s = some e) :
    e = .cfg ∨ e = .cap ∨ e = .range := by
  cases i <;>
    simp only [checkOf, noCheck, b2hCheck, h2bCheck, layoutCheck, drawcCheck, encCheck, gridCheck,
      probecCheck, reduceCtorEq] at h <;>
    (repeat' split at h) <;> simp_all

/-! ## Loops -/

theorem repeatBody_succ (f : State → State) (n : Nat) (s : State) :
    repeatBody f (n + 1) s = f (repeatBody f n s) := by
  induction n generalizing s with
  | zero => rfl
  | succ n ih => exact ih (f s)

/-- What one round keeps, every number of rounds keeps. -/
theorem repeatBody_keeps {β : Type} (g : State → β) (f : State → State) (hf : ∀ s, g (f s) = g s) (n : Nat)
    (s : State) : g (repeatBody f n s) = g s := by
  induction n generalizing s with
  | zero => rfl
  | succ n ih => exact (ih (f s)).trans (hf s)

/-- An invariant of one round, indexed by the number of rounds done. -/
theorem repeatBody_induction {P : Nat → State → Prop} (f : State → State) (n : Nat) (s : State) (h0 : P 0 s)
    (hstep : ∀ k t, k < n → P k t → P (k + 1) (f t)) : P n (repeatBody f n s) := by
  induction n with
  | zero => exact h0
  | succ n ih =>
    rw [repeatBody_succ]
    exact hstep n _ (Nat.lt_succ_self n) (ih fun k t hk => hstep k t (Nat.lt_succ_of_lt hk))

end Sys2Proof.Machine
end

