-- ==== Sys2Proof/Laws/Memory.lean ====
section
/-! SUPPORT. The three buffers: what each memory operation does to a read of one element, that it keeps the
canonical form (`Memory.wf`), and that it lists no index the block does not have (`Memory.within`). -/

namespace Sys2Proof.Machine

/-! ## Reads -/

theorem byteAt_setByte (m : Memory) (k j : Nat) (v : Byte) :
    (m.setByte k v).byteAt j = if j = k then v else m.byteAt j := bufRead_bufWrite _ _ _ _ _

theorem digitAt_setDigit (m : Memory) (k j : Nat) (v : Digit) :
    (m.setDigit k v).digitAt j = if j = k then v else m.digitAt j := bufRead_bufWrite _ _ _ _ _

theorem pixelAt_setPixel (m : Memory) (x y x' y' : Nat) (p : Pixel) :
    (m.setPixel x y p).pixelAt x' y' = if x' = x ∧ y' = y then p else m.pixelAt x' y' := by
  unfold Memory.setPixel Memory.pixelAt
  by_cases hy : y' = y
  · subst hy; simp [bufRead_bufWrite]
  · simp [bufRead_bufWrite, hy]

theorem byteAt_putBytes (m : Memory) (bs : List Byte) (j : Nat) :
    (m.putBytes bs).byteAt j = if j < bs.length then bs.getD j unwrittenByte else m.byteAt j :=
  bufRead_bufPut _ _ _ _

theorem digitAt_putDigits (m : Memory) (hs : List Digit) (j : Nat) :
    (m.putDigits hs).digitAt j = if j < hs.length then hs.getD j unwrittenDigit else m.digitAt j :=
  bufRead_bufPut _ _ _ _

@[simp] theorem length_bytes (m : Memory) (n : Nat) : (m.bytes n).length = n := length_bufTake _ _ _
@[simp] theorem length_digits (m : Memory) (n : Nat) : (m.digits n).length = n := length_bufTake _ _ _

theorem getD_bytes (m : Memory) {n k : Nat} (e : Byte) (h : k < n) : (m.bytes n).getD k e = m.byteAt k :=
  getD_bufTake _ _ _ _ _ h

theorem getD_digits (m : Memory) {n k : Nat} (e : Digit) (h : k < n) : (m.digits n).getD k e = m.digitAt k :=
  getD_bufTake _ _ _ _ _ h

/-- Painting: the pixels of the painted part for which `on` holds, and no others. -/
theorem pixelAt_paint (m : Memory) (x0 w h : Nat) (on : Nat → Nat → Bool) (p : Pixel) (x y : Nat) :
    (m.paint x0 w h on p).pixelAt x y =
      if x0 ≤ x ∧ x < x0 + w ∧ y < h ∧ on (x - x0) y = true then p else m.pixelAt x y := by
  unfold Memory.paint Memory.pixelAt paintRow
  by_cases hy : y < h
  · by_cases hx : x0 ≤ x ∧ x < x0 + w
    · by_cases ho : on (x - x0) y = true <;> simp [bufRead_bufUpdate, hx, hy, ho]
    · have : ¬(x0 ≤ x ∧ x < x0 + w ∧ y < h ∧ on (x - x0) y = true) := fun hh => hx ⟨hh.1, hh.2.1⟩
      rw [if_neg this]
      simp [bufRead_bufUpdate, hy, hx]
  · simp [bufRead_bufUpdate, hy]

theorem paint_pb (m : Memory) (x0 w h : Nat) (on : Nat → Nat → Bool) (p : Pixel) :
    (m.paint x0 w h on p).pb = bufUpdate [] m.pb 0 h fun v row => paintRow row x0 w (fun u => on u v) p := rfl

/-! ## Which buffer an operation touches -/

@[simp] theorem setByte_hb (m : Memory) (k : Nat) (v : Byte) : (m.setByte k v).hb = m.hb := rfl
@[simp] theorem setByte_pb (m : Memory) (k : Nat) (v : Byte) : (m.setByte k v).pb = m.pb := rfl
@[simp] theorem setDigit_bb (m : Memory) (k : Nat) (v : Digit) : (m.setDigit k v).bb = m.bb := rfl
@[simp] theorem setDigit_pb (m : Memory) (k : Nat) (v : Digit) : (m.setDigit k v).pb = m.pb := rfl
@[simp] theorem setPixel_bb (m : Memory) (x y : Nat) (p : Pixel) : (m.setPixel x y p).bb = m.bb := rfl
@[simp] theorem setPixel_hb (m : Memory) (x y : Nat) (p : Pixel) : (m.setPixel x y p).hb = m.hb := rfl
@[simp] theorem putBytes_hb (m : Memory) (bs : List Byte) : (m.putBytes bs).hb = m.hb := rfl
@[simp] theorem putBytes_pb (m : Memory) (bs : List Byte) : (m.putBytes bs).pb = m.pb := rfl
@[simp] theorem putDigits_bb (m : Memory) (hs : List Digit) : (m.putDigits hs).bb = m.bb := rfl
@[simp] theorem putDigits_pb (m : Memory) (hs : List Digit) : (m.putDigits hs).pb = m.pb := rfl
@[simp] theorem paint_bb (m : Memory) (x0 w h : Nat) (on : Nat → Nat → Bool) (p : Pixel) :
    (m.paint x0 w h on p).bb = m.bb := rfl
@[simp] theorem paint_hb (m : Memory) (x0 w h : Nat) (on : Nat → Nat → Bool) (p : Pixel) :
    (m.paint x0 w h on p).hb = m.hb := rfl

@[simp] theorem byteAt_setDigit (m : Memory) (k j : Nat) (v : Digit) : (m.setDigit k v).byteAt j = m.byteAt j := rfl
@[simp] theorem byteAt_putDigits (m : Memory) (hs : List Digit) (j : Nat) : (m.putDigits hs).byteAt j = m.byteAt j := rfl
@[simp] theorem byteAt_paint (m : Memory) (x0 w h : Nat) (on : Nat → Nat → Bool) (p : Pixel) (j : Nat) :
    (m.paint x0 w h on p).byteAt j = m.byteAt j := rfl
@[simp] theorem digitAt_putBytes (m : Memory) (bs : List Byte) (j : Nat) : (m.putBytes bs).digitAt j = m.digitAt j := rfl
@[simp] theorem digitAt_paint (m : Memory) (x0 w h : Nat) (on : Nat → Nat → Bool) (p : Pixel) (j : Nat) :
    (m.paint x0 w h on p).digitAt j = m.digitAt j := rfl
@[simp] theorem pixelAt_setDigit (m : Memory) (k x y : Nat) (v : Digit) : (m.setDigit k v).pixelAt x y = m.pixelAt x y := rfl
@[simp] theorem pixelAt_putBytes (m : Memory) (bs : List Byte) (x y : Nat) : (m.putBytes bs).pixelAt x y = m.pixelAt x y := rfl
@[simp] theorem pixelAt_putDigits (m : Memory) (hs : List Digit) (x y : Nat) : (m.putDigits hs).pixelAt x y = m.pixelAt x y := rfl

/-! ## The canonical form -/

theorem wf_empty : Memory.empty.wf := by decide

theorem wf_setByte {m : Memory} (h : m.wf) (k : Nat) (v : Byte) : (m.setByte k v).wf :=
  ⟨bufWf_bufWrite _ _ _ _ h.1, h.2⟩

theorem wf_setDigit {m : Memory} (h : m.wf) (k : Nat) (v : Digit) : (m.setDigit k v).wf :=
  ⟨h.1, bufWf_bufWrite _ _ _ _ h.2.1, h.2.2⟩

theorem wf_putBytes {m : Memory} (h : m.wf) (bs : List Byte) : (m.putBytes bs).wf :=
  ⟨bufWf_bufPut _ _ _ h.1, h.2⟩

theorem wf_putDigits {m : Memory} (h : m.wf) (hs : List Digit) : (m.putDigits hs).wf :=
  ⟨h.1, bufWf_bufPut _ _ _ h.2.1, h.2.2⟩

/-- A row read from a canonical PB is canonical, listed or not. -/
theorem wf_row {m : Memory} (h : m.wf) (y : Nat) : bufWf unwrittenPixel (bufRead [] m.pb y) := by
  by_cases hr : bufRead [] m.pb y = []
  · rw [hr]; exact bufWf_nil _
  · exact h.2.2.2 _ (mem_of_bufRead_ne [] m.pb hr)

theorem wf_setPixel {m : Memory} (h : m.wf) (x y : Nat) (p : Pixel) : (m.setPixel x y p).wf := by
  refine ⟨h.1, h.2.1, bufWf_bufWrite _ _ _ _ h.2.2.1, ?_⟩
  intro e he
  rcases mem_bufWrite he with he | ⟨_, rfl⟩
  · exact h.2.2.2 e he
  · exact bufWf_bufWrite _ _ _ _ (wf_row h y)

theorem wf_paint {m : Memory} (hm : m.wf) (x0 w h : Nat) (on : Nat → Nat → Bool) (p : Pixel) :
    (m.paint x0 w h on p).wf := by
  refine ⟨hm.1, hm.2.1, ?_, ?_⟩
  · rw [paint_pb]; exact bufWf_bufUpdate _ _ _ _ _ hm.2.2.1
  intro e he
  rw [paint_pb] at he
  rcases mem_bufUpdate.1 he with ⟨he, _⟩ | ⟨i, _, _, rfl⟩ | ⟨he, _⟩
  · exact hm.2.2.2 e he
  · exact bufWf_bufUpdate _ _ _ _ _ (wf_row hm _)
  · exact hm.2.2.2 e he

/-- Equal contents are equal data: two canonical memories with the same reads are the same memory. -/
theorem eq_of_reads {m m' : Memory} (h : m.wf) (h' : m'.wf) (hb : ∀ k, m.byteAt k = m'.byteAt k)
    (hd : ∀ k, m.digitAt k = m'.digitAt k) (hp : ∀ x y, m.pixelAt x y = m'.pixelAt x y) : m = m' := by
  have h1 := eq_of_bufRead_eq _ _ _ h.1 h'.1 hb
  have h2 := eq_of_bufRead_eq _ _ _ h.2.1 h'.2.1 hd
  have h3 := eq_of_bufRead_eq [] _ _ h.2.2.1 h'.2.2.1
    fun y => eq_of_bufRead_eq _ _ _ (wf_row h y) (wf_row h' y) fun x => hp x y
  cases m; cases m'; simp_all

/-! ## Indices the block has -/

theorem within_empty (c : Config) : Memory.empty.within c := by
  simp [Memory.within, Memory.empty, bufBelow]

theorem within_setByte {c : Config} {m : Memory} (h : m.within c) {k : Nat} (v : Byte) (hk : k < c.maxBytes) :
    (m.setByte k v).within c := ⟨bufBelow_bufWrite _ _ _ _ _ h.1 hk, h.2⟩

theorem within_setDigit {c : Config} {m : Memory} (h : m.within c) {k : Nat} (v : Digit) (hk : k < c.maxDigits) :
    (m.setDigit k v).within c := ⟨h.1, bufBelow_bufWrite _ _ _ _ _ h.2.1 hk, h.2.2⟩

theorem within_putBytes {c : Config} {m : Memory} (h : m.within c) {bs : List Byte} (hl : bs.length ≤ c.maxBytes) :
    (m.putBytes bs).within c := ⟨bufBelow_bufPut _ _ _ _ h.1 hl, h.2⟩

theorem within_putDigits {c : Config} {m : Memory} (h : m.within c) {hs : List Digit} (hl : hs.length ≤ c.maxDigits) :
    (m.putDigits hs).within c := ⟨h.1, bufBelow_bufPut _ _ _ _ h.2.1 hl, h.2.2⟩

theorem within_row {c : Config} {m : Memory} (h : m.within c) (y : Nat) : bufBelow c.maxW (bufRead [] m.pb y) := by
  by_cases hr : bufRead [] m.pb y = []
  · rw [hr]; intro e he; simp at he
  · exact h.2.2.2 _ (mem_of_bufRead_ne [] m.pb hr)

theorem within_setPixel {c : Config} {m : Memory} (h : m.within c) {x y : Nat} (p : Pixel) (hx : x < c.maxW)
    (hy : y < c.maxH) : (m.setPixel x y p).within c := by
  refine ⟨h.1, h.2.1, bufBelow_bufWrite _ _ _ _ _ h.2.2.1 hy, ?_⟩
  intro e he
  rcases mem_bufWrite he with he | ⟨_, rfl⟩
  · exact h.2.2.2 e he
  · exact bufBelow_bufWrite _ _ _ _ _ (within_row h y) hx

theorem paintRow_eq_of_off (row : Buffer Pixel) (x0 w : Nat) (on : Nat → Bool) (p : Pixel)
    (hrow : row = []) (hoff : ∀ u < w, on u = false) : paintRow row x0 w on p = [] := by
  subst hrow
  by_contra hne
  obtain ⟨e, he⟩ := List.exists_mem_of_ne_nil _ hne
  rcases mem_bufUpdate.1 he with ⟨he, _⟩ | ⟨i, hi, hne, _⟩ | ⟨he, _⟩
  · simp at he
  · simp [hoff i hi] at hne
  · simp at he

theorem within_paint {c : Config} {m : Memory} (hm : m.within c) (x0 w h : Nat) (on : Nat → Nat → Bool) (p : Pixel)
    (hon : ∀ u < w, ∀ v < h, on u v = true → x0 + u < c.maxW ∧ v < c.maxH) : (m.paint x0 w h on p).within c := by
  refine ⟨hm.1, hm.2.1, ?_, ?_⟩
  · rw [paint_pb]
    refine bufBelow_bufUpdate _ _ _ _ _ _ hm.2.2.1 ?_
    intro v hv hne
    rw [Nat.zero_add] at hne ⊢
    by_cases hr : bufRead [] m.pb v = []
    · by_contra hge
      refine hne (paintRow_eq_of_off _ _ _ _ _ hr fun u hu => ?_)
      by_contra hon'
      exact hge (hon u hu v hv (by simpa using hon')).2
    · exact hm.2.2.1 _ (mem_of_bufRead_ne [] m.pb hr)
  · intro e he
    rw [paint_pb] at he
    rcases mem_bufUpdate.1 he with ⟨he, _⟩ | ⟨v, hv, _, rfl⟩ | ⟨he, _⟩
    · exact hm.2.2.2 e he
    · refine bufBelow_bufUpdate _ _ _ _ _ _ (within_row hm _) fun u hu hne => ?_
      by_cases ho : on u v = true
      · exact (hon u hu v hv ho).1
      · rw [if_neg ho] at hne
        exact within_row hm _ _ (mem_of_bufRead_ne unwrittenPixel _ hne)
    · exact hm.2.2.2 e he

end Sys2Proof.Machine
end

