-- ==== Sys2Proof/Laws/Encoder.lean ====
section
/-! SUPPORT. The encoder: a cell's picture pixel by pixel, and what a number of DRAWC bodies leaves. -/

namespace Sys2Proof.Machine

theorem absDiff_eq_natAbs (a b : Nat) : absDiff a b = ((a : Int) - (b : Int)).natAbs := by
  unfold absDiff; omega

/-- The union of the set flags' cover predicates is the picture of R80, inside the cell. -/
theorem covered_iff (d : Digit) (n w u v : Nat) :
    covered (digitToBits d) n w u v = true ↔ u < n ∧ v < n ∧ GlyphWhite d n w u v := by
  simp only [covered, coverBackslash, coverSlash, coverVertical, coverHorizontal, inCell, digitToBits,
    absDiff_eq_natAbs, Bool.or_eq_true, Bool.and_eq_true, decide_eq_true_eq, GlyphWhite, Nat.cast_add]
  tauto

theorem toNat_reg {n : Nat} (h : n < 2 ^ 32) : (reg n).toNat = n := by
  rw [reg, BitVec.toNat_ofNat, Nat.mod_eq_of_lt h]

theorem reg_toNat (w : Word) : reg w.toNat = w := by
  simp [reg]

/-- `DrawCell` pixel by pixel (R76). -/
theorem pixelAt_drawCell (c : Nat) (d : Digit) (s : State) (x y : Nat) :
    (drawCell c d s).pixelAt x y =
      if c * s.cell.toNat ≤ x ∧ x < c * s.cell.toNat + s.cell.toNat ∧ y < s.cell.toNat ∧ x < s.imw.toNat ∧ y < s.imh.toNat ∧
          GlyphWhite d s.cell.toNat s.lw.toNat (x - c * s.cell.toNat) y
      then Pixel.white else s.mem.pixelAt x y := by
  rw [drawCell, pixelAt_paint]
  congr 1
  simp only [Bool.and_eq_true, decide_eq_true_eq, covered_iff, eq_iff_iff]
  constructor
  · rintro ⟨h1, h2, h3, ⟨-, -, h4⟩, h5, h6⟩
    exact ⟨h1, h2, h3, by omega, h6, h4⟩
  · rintro ⟨h1, h2, h3, h4, h5, h6⟩
    exact ⟨h1, h2, h3, ⟨by omega, h3, h6⟩, by omega, h5⟩

@[simp] theorem drawCell_bb (c : Nat) (d : Digit) (s : State) : (drawCell c d s).bb = s.mem.bb := rfl
@[simp] theorem drawCell_hb (c : Nat) (d : Digit) (s : State) : (drawCell c d s).hb = s.mem.hb := rfl
@[simp] theorem digitAt_drawCell (c : Nat) (d : Digit) (s : State) (k : Nat) :
    (drawCell c d s).digitAt k = s.mem.digitAt k := rfl
@[simp] theorem byteAt_drawCell (c : Nat) (d : Digit) (s : State) (k : Nat) :
    (drawCell c d s).byteAt k = s.mem.byteAt k := rfl

/-! ## A number of DRAWC bodies -/

/-- Any number of DRAWC bodies changes DIG, QUAD, CCOL and PB, and nothing else. -/
theorem drawc_rounds_frame (n : Nat) (s : State) :
    repeatBody drawcBody n s =
      { s with
        dig := (repeatBody drawcBody n s).dig, quad := (repeatBody drawcBody n s).quad,
        ccol := (repeatBody drawcBody n s).ccol,
        mem := { s.mem with pb := (repeatBody drawcBody n s).mem.pb } } := by
  apply State.ext <;> try rfl
  · exact repeatBody_keeps (·.config) drawcBody (fun _ => rfl) n s
  · exact repeatBody_keeps (·.status) drawcBody (fun _ => rfl) n s
  · exact repeatBody_keeps (·.errcode) drawcBody (fun _ => rfl) n s
  · exact repeatBody_keeps (·.cell) drawcBody (fun _ => rfl) n s
  · exact repeatBody_keeps (·.lw) drawcBody (fun _ => rfl) n s
  · exact repeatBody_keeps (·.blen) drawcBody (fun _ => rfl) n s
  · exact repeatBody_keeps (·.hlen) drawcBody (fun _ => rfl) n s
  · exact repeatBody_keeps (·.imw) drawcBody (fun _ => rfl) n s
  · exact repeatBody_keeps (·.imh) drawcBody (fun _ => rfl) n s
  · exact repeatBody_keeps (·.cols) drawcBody (fun _ => rfl) n s
  · exact repeatBody_keeps (·.rows) drawcBody (fun _ => rfl) n s
  · exact repeatBody_keeps (·.crow) drawcBody (fun _ => rfl) n s
  · have h1 := repeatBody_keeps (·.mem.bb) drawcBody (fun _ => rfl) n s
    have h2 := repeatBody_keeps (·.mem.hb) drawcBody (fun _ => rfl) n s
    dsimp only at h1 h2 ⊢
    rw [← h1, ← h2]
  · exact repeatBody_keeps (·.script) drawcBody (fun _ => rfl) n s
  · exact repeatBody_keeps (·.replies) drawcBody (fun _ => rfl) n s

/-- What `n` DRAWC bodies do from column 0 on: the cursor at `n`, the last digit in DIG and QUAD, and in each of
the first `n` cells the picture of its digit. -/
theorem drawc_rounds (n : Nat) (s : State) (h0 : s.ccol.toNat = 0) (hN : 0 < s.cell.toNat) (hn : n < 2 ^ 32) :
    (repeatBody drawcBody n s).ccol.toNat = n ∧
      (repeatBody drawcBody n s).dig = (if n = 0 then s.dig else s.mem.digitAt (n - 1)) ∧
      (repeatBody drawcBody n s).quad = (if n = 0 then s.quad else s.mem.digitAt (n - 1)) ∧
      ∀ x y, (repeatBody drawcBody n s).mem.pixelAt x y =
        if x / s.cell.toNat < n ∧ y < s.cell.toNat ∧ x < s.imw.toNat ∧ y < s.imh.toNat ∧
            GlyphWhite (s.mem.digitAt (x / s.cell.toNat)) s.cell.toNat s.lw.toNat (x % s.cell.toNat) y
        then Pixel.white else s.mem.pixelAt x y := by
  induction n with
  | zero => exact ⟨h0, rfl, rfl, fun x y => by simp [repeatBody]⟩
  | succ n ih =>
    obtain ⟨hc, -, -, hp⟩ := ih (by omega)
    have hf := drawc_rounds_frame n s
    rw [repeatBody_succ]
    generalize repeatBody drawcBody n s = t at hc hp hf ⊢
    have hcell : t.cell.toNat = s.cell.toNat := by rw [hf]
    have hlw : t.lw.toNat = s.lw.toNat := by rw [hf]
    have himw : t.imw.toNat = s.imw.toNat := by rw [hf]
    have himh : t.imh.toNat = s.imh.toNat := by rw [hf]
    have hdig : ∀ k, t.mem.digitAt k = s.mem.digitAt k := fun k => by rw [hf]; rfl
    refine ⟨?_, ?_, ?_, fun x y => ?_⟩
    · show (reg (t.ccol.toNat + 1)).toNat = n + 1
      rw [hc, toNat_reg (by omega)]
    · simp [hc, hdig]
    · simp [hc, hdig]
    · rw [drawcBody_mem, pixelAt_drawCell, hc, hcell, hlw, himw, himh, hdig, hp]
      by_cases hx : x / s.cell.toNat = n
      · have hd := Nat.div_add_mod x s.cell.toNat
        rw [hx] at hd
        have hm := Nat.mod_lt x hN
        have hcomm : s.cell.toNat * n = n * s.cell.toNat := Nat.mul_comm _ _
        have hsub : x - n * s.cell.toNat = x % s.cell.toNat := by omega
        rw [hx, hsub]
        have h1 : n * s.cell.toNat ≤ x := by omega
        have h2 : x < n * s.cell.toNat + s.cell.toNat := by omega
        simp [h1, h2]
      · have h1 : ¬(n * s.cell.toNat ≤ x ∧ x < n * s.cell.toNat + s.cell.toNat) := by
          rintro ⟨ha, hb⟩
          apply hx
          rw [Nat.div_eq_iff hN]
          have : n * s.cell.toNat + s.cell.toNat = (n + 1) * s.cell.toNat := by ring
          constructor
          · omega
          · omega
        have h2 : (x / s.cell.toNat < n + 1) ↔ (x / s.cell.toNat < n) := by omega
        rw [if_neg (fun h => h1 ⟨h.1, h.2.1⟩)]
        simp only [h2]

end Sys2Proof.Machine
end

