-- ==== Sys2Proof/Laws/Decoder.lean ====
section
/-! SUPPORT. The decoder: when a probe is lit, what a cell's probes read, and what a number of PROBEC bodies
leaves. -/

namespace Sys2Proof.Machine

theorem lit_iff (s : State) (x y : Nat) : s.lit x y = true ↔ IsLit s x y := by
  simp only [State.lit, Bool.and_eq_true, decide_eq_true_eq]
  exact Iff.rfl

/-- The probes of a cell read CELL and the lit pixels, nothing else. -/
theorem probeCell_congr {s t : State} (hc : t.cell = s.cell) (hl : ∀ x y, t.lit x y = s.lit x y) (c r : Nat) :
    t.probeCell c r = s.probeCell c r := by
  simp [State.probeCell, hc, hl]

theorem lit_congr {s t : State} (hw : t.imw = s.imw) (hh : t.imh = s.imh) (hp : t.mem.pb = s.mem.pb) (x y : Nat) :
    t.lit x y = s.lit x y := by
  unfold State.lit Memory.pixelAt
  rw [hw, hh, hp]

/-- The digit a cell's probes give, in the terms claims use. -/
theorem probesTo_probeCell (s : State) (c r : Nat) : ProbesTo s c r (bitsToDigit (s.probeCell c r)) := by
  simp only [ProbesTo, getLsbD_bitsToDigit_3, getLsbD_bitsToDigit_2, getLsbD_bitsToDigit_1,
    getLsbD_bitsToDigit_0, State.probeCell, Bool.and_eq_true, lit_iff, and_self]

/-- A ceiling division does not grow: it fits where its dividend fits. -/
theorem ceilDiv_le {a n : Nat} (hn : 0 < n) : ceilDiv a n ≤ a := by
  unfold ceilDiv
  obtain ⟨n, rfl⟩ : ∃ k, n = k + 1 := ⟨n - 1, by omega⟩
  rcases Nat.eq_zero_or_pos a with rfl | ha
  · rw [Nat.div_eq_of_lt (by omega)]
  · obtain ⟨a, rfl⟩ : ∃ k, a = k + 1 := ⟨a - 1, by omega⟩
    refine Nat.div_le_of_le_mul ?_
    have : (n + 1) * (a + 1) = n * a + n + a + 1 := by ring
    omega

/-- One cell on, in raster order: the quotient and the remainder by the number of columns. -/
theorem raster_succ {c k : Nat} (hc : 0 < c) :
    ((k + 1) % c = if k % c + 1 < c then k % c + 1 else 0) ∧
      ((k + 1) / c = if k % c + 1 < c then k / c else k / c + 1) := by
  have hd := Nat.div_add_mod k c
  have hm := Nat.mod_lt k hc
  by_cases h : k % c + 1 < c
  · have := (Nat.div_mod_unique (a := k + 1) (c := k % c + 1) (d := k / c) hc).2 ⟨by omega, h⟩
    simp [h, this.1, this.2]
  · have hmul : c * (k / c + 1) = c * (k / c) + c := by ring
    have := (Nat.div_mod_unique (a := k + 1) (c := 0) (d := k / c + 1) hc).2 ⟨by omega, hc⟩
    simp [h, this.1, this.2]

/-- Any number of PROBEC bodies changes DIG, QUAD, HLEN, the cursor and HB, and nothing else. -/
theorem probec_rounds_frame (n : Nat) (s : State) :
    repeatBody probecBody n s =
      { s with
        dig := (repeatBody probecBody n s).dig, quad := (repeatBody probecBody n s).quad,
        hlen := (repeatBody probecBody n s).hlen, ccol := (repeatBody probecBody n s).ccol,
        crow := (repeatBody probecBody n s).crow,
        mem := { s.mem with hb := (repeatBody probecBody n s).mem.hb } } := by
  apply State.ext <;> try rfl
  · exact repeatBody_keeps (·.config) probecBody (fun _ => by simp) n s
  · exact repeatBody_keeps (·.status) probecBody (fun _ => by simp) n s
  · exact repeatBody_keeps (·.errcode) probecBody (fun _ => by simp) n s
  · exact repeatBody_keeps (·.cell) probecBody (fun _ => by simp) n s
  · exact repeatBody_keeps (·.lw) probecBody (fun _ => by simp) n s
  · exact repeatBody_keeps (·.blen) probecBody (fun _ => by simp) n s
  · exact repeatBody_keeps (·.imw) probecBody (fun _ => by simp) n s
  · exact repeatBody_keeps (·.imh) probecBody (fun _ => by simp) n s
  · exact repeatBody_keeps (·.cols) probecBody (fun _ => by simp) n s
  · exact repeatBody_keeps (·.rows) probecBody (fun _ => by simp) n s
  · have h1 := repeatBody_keeps (·.mem.bb) probecBody (fun _ => by simp) n s
    have h2 := repeatBody_keeps (·.mem.pb) probecBody (fun _ => by simp) n s
    dsimp only at h1 h2 ⊢
    rw [← h1, ← h2]
  · exact repeatBody_keeps (·.script) probecBody (fun _ => by simp) n s
  · exact repeatBody_keeps (·.replies) probecBody (fun _ => by simp) n s

/-- What `n` PROBEC bodies do from cell (0, 0) and an empty HB on: the cells in raster order, each digit at its
place, the last one in DIG and QUAD. -/
theorem probec_rounds (n : Nat) (s : State) (h0 : s.ccol.toNat = 0) (h1 : s.crow.toNat = 0) (h2 : s.hlen.toNat = 0)
    (hn : n ≤ s.cols.toNat * s.rows.toNat) (hn' : n < 2 ^ 32) :
    (repeatBody probecBody n s).hlen.toNat = n ∧
      (repeatBody probecBody n s).ccol.toNat = n % s.cols.toNat ∧ (repeatBody probecBody n s).crow.toNat = n / s.cols.toNat ∧
      (repeatBody probecBody n s).dig = (if n = 0 then s.dig else
        bitsToDigit (s.probeCell ((n - 1) % s.cols.toNat) ((n - 1) / s.cols.toNat))) ∧
      (repeatBody probecBody n s).quad = (if n = 0 then s.quad else
        bitsToDigit (s.probeCell ((n - 1) % s.cols.toNat) ((n - 1) / s.cols.toNat))) ∧
      ∀ k, (repeatBody probecBody n s).mem.digitAt k =
        if k < n then bitsToDigit (s.probeCell (k % s.cols.toNat) (k / s.cols.toNat)) else s.mem.digitAt k := by
  induction n with
  | zero => exact ⟨h2, by simpa [repeatBody] using h0, by simpa [repeatBody] using h1, rfl, rfl, fun k => by simp [repeatBody]⟩
  | succ n ih =>
    obtain ⟨hh, hc, hr, -, -, hd⟩ := ih (by omega) (by omega)
    have hf := probec_rounds_frame n s
    rw [repeatBody_succ]
    generalize repeatBody probecBody n s = t at hh hc hr hd hf ⊢
    have hcols : t.cols.toNat = s.cols.toNat := by rw [hf]
    have hpos : 0 < s.cols.toNat := by
      rcases Nat.eq_zero_or_pos s.cols.toNat with h | h
      · rw [h] at hn; omega
      · exact h
    have hprobe : t.probedQuad = s.probeCell (n % s.cols.toNat) (n / s.cols.toNat) := by
      rw [State.probedQuad, hc, hr]
      exact probeCell_congr (by rw [hf]) (lit_congr (by rw [hf]) (by rw [hf]) (by rw [hf])) _ _
    have hsucc := raster_succ (k := n) hpos
    have hmod := Nat.mod_lt n hpos
    have hle := Nat.div_le_self n s.cols.toNat
    have hlt : n % s.cols.toNat ≤ n := Nat.mod_le _ _
    refine ⟨?_, ?_, ?_, ?_, ?_, fun k => ?_⟩
    · show (probecBody t).hlen.toNat = n + 1
      rw [probecBody_hlen, hh, toNat_reg (by omega)]
    · show (probecBody t).ccol.toNat = _
      rw [probecBody_ccol, hc, hcols, hsucc.1]
      split
      · rw [toNat_reg (by omega)]
      · rw [toNat_reg (by omega)]
    · show (probecBody t).crow.toNat = _
      rw [probecBody_crow, hc, hr, hcols, hsucc.2]
      split
      · rw [toNat_reg (by omega)]
      · rw [toNat_reg (by omega)]
    · simp [hprobe]
    · simp [hprobe, bitsToDigit_eq_quadReg]
    · rw [probecBody_mem, digitAt_setDigit, hprobe, hh, hd]
      by_cases hk : k = n
      · subst hk; simp
      · have : (k < n + 1) ↔ (k < n) := by omega
        simp [hk, this]

end Sys2Proof.Machine
end

