-- ==== Sys2Proof/Laws/Composite.lean ====
section
/-! SUPPORT. The two composite commands: what ENC's and DEC's bodies write and what they leave, from the frames
of their parts. -/

namespace Sys2Proof.Machine

/-- ENC's body: what it writes outright, and the parts DRAWC's rounds leave (DIG, QUAD, CCOL, PB). -/
theorem encBody_frame (s : State) :
    encBody s =
      { s with
        status := { s.status with empty := emptyFlag (reg (2 * s.blen.toNat)).toNat }
        hlen := reg (2 * s.blen.toNat)
        cols := reg (max 1 (reg (2 * s.blen.toNat)).toNat)
        rows := reg 1
        imw := reg (max 1 (reg (2 * s.blen.toNat)).toNat * s.cell.toNat)
        imh := reg s.cell.toNat
        ccol := (encBody s).ccol
        crow := reg 0
        dig := (encBody s).dig
        quad := (encBody s).quad
        mem :=
          { bb := s.mem.bb
            hb := (s.mem.putDigits (expand (s.mem.bytes s.blen.toNat))).hb
            pb := (encBody s).mem.pb } } := by
  have h := drawc_rounds_frame (2 * s.blen.toNat) (layoutBody (b2hBody s))
  exact h

/-- DEC's body: what it writes outright, and the parts PROBEC's rounds leave (DIG, QUAD, HLEN, the cursor, HB);
BLEN, ODD and BB are H2B's, from the HLEN and HB the rounds left. -/
theorem decBody_frame (s : State) :
    decBody s =
      { s with
        status := { s.status with odd := oddFlag (decBody s).hlen.toNat }
        blen := reg ((decBody s).hlen.toNat / 2)
        hlen := (decBody s).hlen
        cols := reg s.gridCols
        rows := reg s.gridRows
        ccol := (decBody s).ccol
        crow := (decBody s).crow
        dig := (decBody s).dig
        quad := (decBody s).quad
        mem :=
          { bb := (s.mem.putBytes (pair ((decBody s).mem.digits (decBody s).hlen.toNat))).bb
            hb := (decBody s).mem.hb
            pb := s.mem.pb } } := by
  have h := probec_rounds_frame (s.gridCols * s.gridRows) (gridBody s)
  unfold decBody
  generalize repeatBody probecBody (s.gridCols * s.gridRows) (gridBody s) = t at h ⊢
  have hst : t.status = s.status := by rw [h]; rfl
  have hbb : t.mem.bb = s.mem.bb := by rw [h]; rfl
  have hpb : t.mem.pb = s.mem.pb := by rw [h]; rfl
  have hmem : (h2bBody t).mem =
      { bb := (s.mem.putBytes (pair ((h2bBody t).mem.digits t.hlen.toNat))).bb, hb := t.mem.hb, pb := s.mem.pb } := by
    have hd : (h2bBody t).mem.digits t.hlen.toNat = t.mem.digits t.hlen.toNat := rfl
    rw [hd, h2bBody_mem]
    simp only [Memory.putBytes, hbb, hpb]
  apply State.ext
  case status => rw [h2bBody_status, hst]; rfl
  case mem => exact hmem
  all_goals first | rfl | (rw [h]; rfl)

end Sys2Proof.Machine
end

