-- ==== Sys2Proof/Laws/HexGlue.lean ====
section
/-! SUPPORT. What HB holds after an expansion and BB after a pairing, element by element. -/

namespace Sys2Proof.Machine

theorem digitAt_expand_even (m : Memory) {n k : Nat} (h : k < n) :
    (m.putDigits (expand (m.bytes n))).digitAt (2 * k) = hiDigit (m.byteAt k) := by
  have hb := getD_bytes m (m.byteAt k) h
  rw [List.getD_eq_getElem?_getD] at hb
  have hs : (m.bytes n)[k]? = some (m.byteAt k) := by
    rw [List.getElem?_eq_getElem (by simpa using h)] at hb ⊢
    exact congrArg some hb
  rw [digitAt_putDigits, if_pos (by simp; omega), List.getD_eq_getElem?_getD, getElem?_expand_even, hs]
  rfl

theorem digitAt_expand_odd (m : Memory) {n k : Nat} (h : k < n) :
    (m.putDigits (expand (m.bytes n))).digitAt (2 * k + 1) = loDigit (m.byteAt k) := by
  have hb := getD_bytes m (m.byteAt k) h
  rw [List.getD_eq_getElem?_getD] at hb
  have hs : (m.bytes n)[k]? = some (m.byteAt k) := by
    rw [List.getElem?_eq_getElem (by simpa using h)] at hb ⊢
    exact congrArg some hb
  rw [digitAt_putDigits, if_pos (by simp; omega), List.getD_eq_getElem?_getD, getElem?_expand_odd, hs]
  rfl

theorem digitAt_expand_of_ge (m : Memory) {n k : Nat} (h : 2 * n ≤ k) :
    (m.putDigits (expand (m.bytes n))).digitAt k = m.digitAt k := by
  rw [digitAt_putDigits, if_neg (by simp; omega)]

theorem byteAt_pair (m : Memory) {n k : Nat} (h : k < n / 2) :
    (m.putBytes (pair (m.digits n))).byteAt k = joinDigits (m.digitAt (2 * k)) (m.digitAt (2 * k + 1)) := by
  have hd : ∀ j (hj : j < n), (m.digits n)[j]'(by simpa using hj) = m.digitAt j := by
    intro j hj
    have := getD_digits m 0#4 hj
    rw [List.getD_eq_getElem?_getD, List.getElem?_eq_getElem (by simpa using hj)] at this
    simpa using this
  rw [byteAt_putBytes, if_pos (by simp; omega), List.getD_eq_getElem?_getD, getElem?_pair _ _ (by simp; omega),
    hd _ (by omega), hd _ (by omega)]
  rfl

theorem byteAt_pair_of_ge (m : Memory) {n k : Nat} (h : n / 2 ≤ k) :
    (m.putBytes (pair (m.digits n))).byteAt k = m.byteAt k := by
  rw [byteAt_putBytes, if_neg (by simp; omega)]

end Sys2Proof.Machine
end

