-- ==== Sys2Proof/Laws/Invariant.lean ====
section
/-! SUPPORT. What every body leaves alone, and that the bodies keep the buffers canonical and within the
capacities. -/

namespace Sys2Proof.Machine

/-! ## The fields no body, or only one, writes -/

theorem bodyOf_config (i : Instr) (s : State) : (bodyOf i s).config = s.config := by
  cases i <;> simp [bodyOf, nopBody]
  · rw [encBody_frame]
  · rw [decBody_frame]

theorem bodyOf_script (i : Instr) (s : State) : (bodyOf i s).script = s.script := by
  cases i <;> simp [bodyOf, nopBody]
  · rw [encBody_frame]
  · rw [decBody_frame]

theorem bodyOf_err (i : Instr) (s : State) :
    (bodyOf i s).status.err = if i = .clr ∨ i = .srst then false else s.status.err := by
  cases i <;> simp [bodyOf, nopBody]
  · rw [encBody_frame]
  · rw [decBody_frame]

theorem bodyOf_errcode (i : Instr) (s : State) :
    (bodyOf i s).errcode = if i = .clr ∨ i = .srst then 0#3 else s.errcode := by
  cases i <;> simp [bodyOf, nopBody]
  · rw [encBody_frame]
  · rw [decBody_frame]

/-! ## The canonical form and the capacities, body by body -/

theorem wf_b2hBody {s : State} (h : s.mem.wf) : (b2hBody s).mem.wf := wf_putDigits h _

theorem wf_h2bBody {s : State} (h : s.mem.wf) : (h2bBody s).mem.wf := wf_putBytes h _

theorem wf_layoutBody {s : State} (h : s.mem.wf) : (layoutBody s).mem.wf := by
  rw [layoutBody_mem]; exact wf_paint h _ _ _ _ _

theorem wf_drawcBody {s : State} (h : s.mem.wf) : (drawcBody s).mem.wf := by
  rw [drawcBody_mem]; exact wf_paint h _ _ _ _ _

theorem wf_probecBody {s : State} (h : s.mem.wf) : (probecBody s).mem.wf := by
  rw [probecBody_mem]; exact wf_setDigit h _ _

theorem within_b2hBody {s : State} {c : Config} (h : s.mem.within c) (hb : 2 * s.blen.toNat ≤ c.maxDigits) :
    (b2hBody s).mem.within c := within_putDigits h (by simpa using hb)

theorem within_h2bBody {s : State} {c : Config} (h : s.mem.within c) (hb : s.hlen.toNat / 2 ≤ c.maxBytes) :
    (h2bBody s).mem.within c := within_putBytes h (by simpa using hb)

theorem within_layoutBody {s : State} {c : Config} (h : s.mem.within c)
    (hw : max 1 s.hlen.toNat * s.cell.toNat ≤ c.maxW) (hh : s.cell.toNat ≤ c.maxH) :
    (layoutBody s).mem.within c := by
  rw [layoutBody_mem]
  refine within_paint h _ _ _ _ _ fun u hu v hv _ => ?_
  omega

theorem within_drawcBody {s : State} {c : Config} (h : s.mem.within c) (hw : s.imw.toNat ≤ c.maxW)
    (hh : s.imh.toNat ≤ c.maxH) : (drawcBody s).mem.within c := by
  rw [drawcBody_mem]
  refine within_paint h _ _ _ _ _ fun u _ v _ ho => ?_
  simp only [Bool.and_eq_true, decide_eq_true_eq] at ho
  omega

theorem within_probecBody {s : State} {c : Config} (h : s.mem.within c) (hb : s.hlen.toNat < c.maxDigits) :
    (probecBody s).mem.within c := by
  rw [probecBody_mem]; exact within_setDigit h _ hb

end Sys2Proof.Machine
end

