-- ==== Sys2Proof/Laws/PerInstr.lean ====
section
/-! SUPPORT. The statement made of every command as syntax, one lemma per constructor: its word is legal, has the
code of R47 in bits 3:0, and decodes to the command it was encoded from. -/

namespace Sys2Proof.Laws.RoundTrip

/-- The command is well formed, its word is a legal one (R45, R48), and the decoder reads the command back. -/
abbrev Statement (i : Instr) : Prop :=
  i.wellFormed = true ∧ WellFormedWord (encode i) ∧ decode (encode i) = .ok i

theorem nop : Statement .nop := by decide
theorem d2b : Statement .d2b := by decide
theorem b2d : Statement .b2d := by decide
theorem b2h : Statement .b2h := by decide
theorem h2b : Statement .h2b := by decide
theorem layout : Statement .layout := by decide
theorem drawc : Statement .drawc := by decide
theorem enc : Statement .enc := by decide
theorem grid : Statement .grid := by decide
theorem probec : Statement .probec := by decide
theorem dec : Statement .dec := by decide
theorem clr : Statement .clr := by decide
theorem srst : Statement .srst := by decide

end Sys2Proof.Laws.RoundTrip
end

