-- ==== Sys2Proof/Laws/Step.lean ====
section
/-! SUPPORT. One step, by the action at the front of the script, and runs of several steps. -/

namespace Sys2Proof.Machine

theorem step_nil {s : State} (h : s.script = []) : step s = .next s := by
  simp [step, nextAction, h]

theorem step_cons {s : State} {a : HostAction} {rest : List HostAction} (h : s.script = a :: rest) :
    step s = hostAct a { s with script := rest } := by
  simp [step, nextAction, h]

@[simp] theorem hostAct_writeReg (n : Nat) (v : Word) (s : State) :
    hostAct (.writeReg n v) s = s.writeReg n v := rfl

@[simp] theorem writeReg_cmd (v : Word) (s : State) : s.writeReg 0 v = s.writeCmd v := rfl

theorem writeCmd_of_ok {w : Word} {i : Instr} (h : decode w = .ok i) (s : State) : s.writeCmd w = exec i s := by
  simp [State.writeCmd, h]

theorem writeCmd_of_error {w : Word} {e : DecodeError} (h : decode w = .error e) (s : State) :
    s.writeCmd w = accept (fun s => .next (s.raise .illCmd)) s := by
  simp [State.writeCmd, h]

/-- A write to CMD by its outcome: the word's command, or the refusal or latch of an illegal word. -/
theorem writeCmd_cases {w : Word} {s t : State} (h : s.writeCmd w = .next t) :
    (∃ i, decode w = .ok i ∧ exec i s = .next t) ∨
      ((∃ e, decode w = .error e) ∧ s.status.err = true ∧ t = s) ∨
      ((∃ e, decode w = .error e) ∧ s.status.err = false ∧ t = s.raise .illCmd) := by
  cases hd : decode w with
  | ok i => rw [writeCmd_of_ok hd] at h; exact .inl ⟨i, rfl, h⟩
  | error e =>
    rw [writeCmd_of_error hd] at h
    cases he : s.status.err with
    | true =>
      rw [accept_of_err he] at h
      exact .inr (.inl ⟨⟨e, rfl⟩, rfl, (by injection h with h; exact h.symm)⟩)
    | false =>
      rw [accept_of_ok he] at h
      exact .inr (.inr ⟨⟨e, rfl⟩, rfl, (by injection h with h; exact h.symm)⟩)

/-! ## Runs -/

@[simp] theorem runSteps_zero (s : State) : runSteps 0 s = .next s := rfl

theorem runSteps_succ_of_next {s t : State} (h : step s = .next t) (n : Nat) :
    runSteps (n + 1) s = runSteps n t := by
  simp [runSteps, h]

/-- A run of one step more ends in a next state only through one. -/
theorem runSteps_succ_next {s u : State} {n : Nat} (h : runSteps (n + 1) s = .next u) :
    ∃ t, step s = .next t ∧ runSteps n t = .next u := by
  cases hs : step s with
  | next t => exact ⟨t, rfl, by rw [← runSteps_succ_of_next hs]; exact h⟩
  | fault r => cases r
  | refused r => simp [runSteps, hs] at h

/-- A run in two parts. -/
theorem runSteps_add {s t : State} {m : Nat} (h : runSteps m s = .next t) (n : Nat) :
    runSteps (m + n) s = runSteps n t := by
  induction m generalizing s with
  | zero =>
    simp only [runSteps_zero, Host.Outcome.next.injEq] at h
    subst h
    rw [Nat.zero_add]
  | succ m ih =>
    obtain ⟨u, hu, hr⟩ := runSteps_succ_next h
    rw [Nat.succ_add, runSteps_succ_of_next hu, ih hr]

end Sys2Proof.Machine
end

