-- ==== Sys2Proof/Tests/Slice0.lean ====
section
/-! SUPPORT. Tests: the smoke test of WellFormed; words written out from the table of R47; a few vectors of
95_test_vectors.md, one step each (the expected values are that file's); and for every obligation with hypotheses
a named witness that meets them. -/

namespace Sys2Proof.Tests

open Sys2Proof.Machine

/-! ## Small states -/

/-- One thing about the state a step answers. -/
def look {α : Type} (g : State → α) : Result → Option α
  | .next t    => some (g t)
  | .fault _   => none
  | .refused _ => none

/-- The bytes in BB and their number in BLEN. -/
def bytesIn (bs : List Byte) (s : State) : State := { s with mem := s.mem.putBytes bs, blen := reg bs.length }

/-- The digits in HB and their number in HLEN. -/
def digitsIn (hs : List Digit) (s : State) : State := { s with mem := s.mem.putDigits hs, hlen := reg hs.length }

/-- The pixels with these reds (no green, no blue) in an image of `w` by `h`. -/
def redsIn (w h : Nat) (ps : List (Nat × Nat × Byte)) (s : State) : State :=
  { s with imw := reg w, imh := reg h,
           mem := ps.foldl (fun m p => m.setPixel p.1 p.2.1 ⟨p.2.2, 0#8, 0#8⟩) s.mem }

/-- Reset, with a cell size and a line width. -/
def sized (n w : Nat) : State := { State.reset with cell := reg n, lw := reg w }

/-- STATUS as the number the vectors show. -/
def statusOf (s : State) : Nat := s.status.toWord.toNat

/-- Row `y` of the picture, one Bool a pixel: white or not. -/
def rowOf (w y : Nat) (s : State) : List Bool := (List.range w).map fun x => decide (s.mem.pixelAt x y = Pixel.white)

/-- A state with the error `E_CFG` latched. -/
def stuck : State := State.reset.raise .cfg

/-- The picture of program P2: a 12 x 12 image, cells of 6, six probe pixels lit and one exactly at 200. -/
def p2 : State :=
  redsIn 12 12 [(1, 1, 255#8), (5, 5, 255#8), (7, 3, 201#8), (3, 7, 200#8), (11, 7, 255#8), (7, 11, 255#8)]
    (sized 6 2)

/-! ## WellFormed: an ill-formed term for each check -/

theorem test_wf_high_bits : ¬WellFormedWord 0x00000010#32 := by decide
theorem test_wf_reserved_code : ¬WellFormedWord 0x0000000D#32 := by decide
theorem test_wf_word : WellFormedWord 0x0000000C#32 := by decide
theorem test_wf_read_register : ¬(HostAction.readReg 16).WellFormed Config.vectors := by decide
theorem test_wf_write_register : ¬(HostAction.writeReg 16 0#32).WellFormed Config.vectors := by decide
theorem test_wf_read_byte : ¬(HostAction.readByte 32).WellFormed Config.vectors := by decide
theorem test_wf_write_byte : ¬(HostAction.writeByte 32 0#8).WellFormed Config.vectors := by decide
theorem test_wf_read_digit : ¬(HostAction.readDigit 64).WellFormed Config.vectors := by decide
theorem test_wf_write_digit : ¬(HostAction.writeDigit 64 0#4).WellFormed Config.vectors := by decide
theorem test_wf_read_pixel : ¬(HostAction.readPixel 640 0).WellFormed Config.vectors := by decide
theorem test_wf_write_pixel : ¬(HostAction.writePixel 0 64 Pixel.white).WellFormed Config.vectors := by decide
theorem test_wf_edges : (HostAction.readReg 15).WellFormed Config.vectors ∧
    (HostAction.writeByte 31 0#8).WellFormed Config.vectors ∧
    (HostAction.writePixel 639 63 Pixel.white).WellFormed Config.vectors := by decide
theorem test_wf_config_odd : ¬(Config.mk 63 640 64).Legal := by decide
theorem test_wf_config_none : ¬(Config.mk 0 640 64).Legal := by decide
theorem test_wf_config_wide : ¬(Config.mk 64 4294967296 64).Legal := by decide
theorem test_wf_config_flat : ¬(Config.mk 64 640 0).Legal := by decide
theorem test_wf_memory_order : ¬(Memory.mk [(1, 5#8), (0, 5#8)] [] []).wf := by decide
theorem test_wf_memory_default : ¬(Memory.mk [] [(3, 0#4)] []).wf := by decide
theorem test_wf_memory_empty_row : ¬(Memory.mk [] [] [(2, [])]).wf := by decide

/-! ## Decoding: every command's word, bit by bit from R45 and R47; illegal words of V35 -/

theorem test_decode_nop : decode 0b00000000000000000000000000000000#32 = .ok .nop := by decide
theorem test_decode_d2b : decode 0b00000000000000000000000000000001#32 = .ok .d2b := by decide
theorem test_decode_b2d : decode 0b00000000000000000000000000000010#32 = .ok .b2d := by decide
theorem test_decode_b2h : decode 0b00000000000000000000000000000011#32 = .ok .b2h := by decide
theorem test_decode_h2b : decode 0b00000000000000000000000000000100#32 = .ok .h2b := by decide
theorem test_decode_layout : decode 0b00000000000000000000000000000101#32 = .ok .layout := by decide
theorem test_decode_drawc : decode 0b00000000000000000000000000000110#32 = .ok .drawc := by decide
theorem test_decode_enc : decode 0b00000000000000000000000000000111#32 = .ok .enc := by decide
theorem test_decode_grid : decode 0b00000000000000000000000000001000#32 = .ok .grid := by decide
theorem test_decode_probec : decode 0b00000000000000000000000000001001#32 = .ok .probec := by decide
theorem test_decode_dec : decode 0b00000000000000000000000000001010#32 = .ok .dec := by decide
theorem test_decode_clr : decode 0b00000000000000000000000000001011#32 = .ok .clr := by decide
theorem test_decode_srst : decode 0b00000000000000000000000000001100#32 = .ok .srst := by decide
theorem test_decode_reserved : [0xD#32, 0xE#32, 0xF#32].map decode =
    [.error (.reservedCode 0xD#4), .error (.reservedCode 0xE#4), .error (.reservedCode 0xF#4)] := by decide
theorem test_decode_high_bits : [0x10#32, 0x17#32, 0x80000007#32, 0xFFFFFFFF#32].map decode =
    List.replicate 4 (.error .highBitsSet) := by decide
theorem test_table_word : decodeTableWord 32 9 = some .probec ∧ decodeTableWord 32 0x17 = none := by decide
theorem test_fetch_word : look (·.quad) (step (({ State.reset with dig := 9#4 } : State).withFetchWord 32 1)) =
    some 9#4 := by decide

/-! ## One step: vectors of 95_test_vectors.md -/

/-- V35: word 0xD from reset. -/
theorem test_illegal_word : look (fun t => (statusOf t, t.errcode)) (step (State.reset.withFetchWord 32 0xD)) =
    some (1, 1#3) := by decide
/-- V36: with `E_CFG` latched, 0xD does not change the code. -/
theorem test_illegal_word_refused : look (·.errcode) (step (stuck.withFetchWord 32 0xD)) = some 2#3 := by decide
/-- V35: word 0. -/
theorem test_nop : exec .nop State.reset = .next State.reset := rfl
/-- V10. -/
theorem test_d2b : look (fun t => (t.quad, t.dig)) (exec .d2b { State.reset with dig := 9#4 }) = some (9#4, 9#4) := by
  decide
/-- V11. -/
theorem test_b2d : look (fun t => (t.quad, t.dig)) (exec .b2d { State.reset with dig := 9#4, quad := 6#4 }) =
    some (6#4, 6#4) := by decide
/-- V15. -/
theorem test_b2h : look (fun t => (t.mem.digits 6, t.hlen)) (exec .b2h (bytesIn [0x00#8, 0xFF#8, 0xA5#8] State.reset)) =
    some ([0#4, 0#4, 15#4, 15#4, 10#4, 5#4], 6#32) := by decide
/-- V19: 33 bytes do not fit, 32 do. -/
theorem test_b2h_capacity : look (fun t => (statusOf t, t.errcode)) (exec .b2h { State.reset with blen := 33#32 }) =
    some (1, 3#3) ∧ look (fun t => (statusOf t, t.hlen)) (exec .b2h { State.reset with blen := 32#32 }) =
    some (0, 64#32) := by decide
/-- V5: an odd last digit is dropped. -/
theorem test_h2b : look (fun t => (t.mem.bytes 3, t.blen, statusOf t, t.hlen))
    (exec .h2b (digitsIn [4#4, 8#4, 6#4, 9#4, 7#4] State.reset)) =
    some ([0x48#8, 0x69#8, 0#8], 2#32, 2, 5#32) := by decide
/-- V17. -/
theorem test_h2b_one_digit : look (fun t => (t.blen, statusOf t)) (exec .h2b (digitsIn [5#4] State.reset)) =
    some (0#32, 2) := by decide
/-- V24, at cell size 3: white pixels inside turn black, the pixel to the right of the image stays white. -/
theorem test_layout : look (fun t => ((t.cols, t.rows, t.imw, t.imh), statusOf t, rowOf 7 2 t))
    (exec .layout { digitsIn [1#4, 2#4] (sized 3 2) with
      mem := (Memory.empty.setPixel 5 2 Pixel.white).setPixel 6 2 Pixel.white }) =
    some ((2#32, 1#32, 6#32, 3#32), 0, [false, false, false, false, false, false, true]) := by decide
/-- V24: `HLEN = 0`, and `CELL = 65`. -/
theorem test_layout_empty : look (fun t => (t.cols, t.imw, t.imh, statusOf t)) (exec .layout (sized 5 2)) =
    some (1#32, 5#32, 5#32, 4) ∧ look (·.errcode) (exec .layout (sized 65 2)) = some 3#3 := by decide
/-- V25 (d): a cell of 6 clipped to 4 x 3. -/
theorem test_drawc_clipped : look (fun t => ((List.range 4).map fun y => rowOf 6 y t, t.dig, t.ccol))
    (exec .drawc (redsIn 4 3 [] (digitsIn [0xF#4] (sized 6 2)))) =
    some ([[true, true, true, true, false, false], [true, true, true, true, false, false],
      [true, true, true, true, false, false], [false, false, false, false, false, false]], 15#4, 1#32) := by decide
/-- V25 (a), (b): the cursor past the digits, and `E_CAP` before `E_RANGE`. -/
theorem test_drawc_errors : look (fun t => (statusOf t, t.errcode))
    (exec .drawc { State.reset with hlen := 2#32, ccol := 2#32 }) = some (1, 4#3) ∧
    look (·.errcode) (exec .drawc { State.reset with hlen := 65#32, ccol := 70#32 }) = some 3#3 := by decide
/-- V20, first and fifth row of the picture, and the registers. -/
theorem test_enc : look (fun t => ((rowOf 12 0 t, rowOf 12 4 t, t.mem.digits 2), t.hlen, t.ccol, t.dig, t.imw))
    (exec .enc (bytesIn [0x94#8] (sized 6 2))) =
    some (([true, true, true, true, true, true, false, false, false, false, false, true],
      [false, false, false, true, true, true, false, true, true, true, false, false],
      [9#4, 4#4]), 2#32, 2#32, 4#4, 12#32) := by decide +kernel
/-- V26: 17 bytes at cell size 20, and `E_CFG` before `E_CAP`. -/
theorem test_enc_errors : look (fun t => (t.errcode, t.hlen)) (exec .enc { State.reset with blen := 17#32 }) =
    some (3#3, 0#32) ∧
    look (·.errcode) (exec .enc { State.reset with blen := 99#32, cell := 0#32, lw := 0#32 }) = some 2#3 := by decide
/-- V32: a last column narrower than a cell counts. -/
theorem test_grid : look (fun t => (t.cols, t.rows, t.hlen)) (exec .grid { State.reset with imw := 61#32, imh := 20#32 }) =
    some (4#32, 1#32, 0#32) := by decide
/-- V32: 16 x 4 cells fit, 13 x 5 do not. -/
theorem test_grid_capacity : look (fun t => (t.cols, t.rows)) (exec .grid { sized 1 2 with imw := 16#32, imh := 4#32 }) =
    some (16#32, 4#32) ∧
    look (·.errcode) (exec .grid { sized 1 2 with imw := 13#32, imh := 5#32 }) = some 3#3 := by decide
/-- P2, lines 13 and 14: red 201 is lit, red 200 is not. -/
theorem test_probec_threshold :
    look (fun t => ((t.quad, t.dig, t.mem.digitAt 1), t.hlen, t.ccol, t.crow))
      (exec .probec { p2 with cols := 2#32, rows := 2#32, ccol := 1#32, hlen := 1#32 }) =
      some ((2#4, 2#4, 2#4), 2#32, 0#32, 1#32) ∧
    look (fun t => (t.quad, t.ccol, t.crow))
      (exec .probec { p2 with cols := 2#32, rows := 2#32, crow := 1#32, hlen := 2#32 }) =
      some (0#4, 1#32, 1#32) := by decide
/-- V33. -/
theorem test_probec_errors : look (·.errcode) (exec .probec State.reset) = some 4#3 ∧
    look (·.errcode) (exec .probec 
      { State.reset with imw := 20#32, imh := 20#32, cols := 1#32, rows := 1#32, hlen := 64#32 }) = some 3#3 := by decide
/-- P2, line 19. -/
theorem test_dec : look (fun t => ((t.mem.digits 4, t.mem.bytes 2, t.blen), statusOf t, t.ccol, t.crow, t.dig)) (exec .dec p2) =
    some (([8#4, 2#4, 0#4, 4#4], [0x82#8, 0x04#8], 2#32), 0, 0#32, 2#32, 4#4) := by decide +kernel
/-- V32: an image of no column; V34: the line width is not read. -/
theorem test_dec_no_cell : look (fun t => (t.cols, t.rows, t.hlen, t.blen, statusOf t))
    (exec .dec { sized 20 0 with imh := 20#32, blen := 3#32 }) = some (0#32, 1#32, 0#32, 0#32, 0) := by decide
/-- V37: CLR clears ODD and EMPTY too. -/
theorem test_clr : look statusOf (exec .clr { State.reset with status := ⟨false, true, true⟩ }) = some 0 := by decide
/-- V38. -/
theorem test_srst : look (fun t => ((t.cell, t.lw, t.hlen), statusOf t, t.errcode, t.readReg 15))
    (exec .srst { stuck with cell := 8#32, lw := 3#32, hlen := 65#32 }) =
    some ((20#32, 2#32, 0#32), 0, 0#3, some 200#32) := by decide
/-- V12 and V39: DIG keeps the low four bits; STATUS, COLS and THR are read-only. -/
theorem test_host_writes : look (·.dig) (step { State.reset with script := [.writeReg 13 0x1F#32] }) = some 0xF#4 ∧
    [(1, 7#32), (9, 9#32), (15, 100#32)].map (fun p => look (fun t => (statusOf t, t.cols, t.readReg 15))
      (step { State.reset with script := [.writeReg p.1 p.2] })) =
      List.replicate 3 (some (0, 0#32, some 200#32)) := by decide
/-- V31, cell size 5 and line width 2: the formulas of R94 on all sixteen digits. -/
theorem test_formula : (List.range 16).map (fun d => bitsToDigit (probedFlags 5 2 (flagsOf (BitVec.ofNat 4 d)))) =
    [0#4, 1#4, 2#4, 7#4, 4#4, 5#4, 6#4, 7#4, 11#4, 11#4, 11#4, 15#4, 15#4, 15#4, 15#4, 15#4] := by decide

/-! ## Witnesses: for each obligation with hypotheses, states and operands that meet them -/

/-- "Hi" in BB, as in V1. -/
def hi : State := bytesIn [0x48#8, 0x69#8] State.reset

/-- One byte at the smallest regular cell size, as in V20. -/
def one : State := bytesIn [0x94#8] (sized 6 2)

/-- A host action alone in the script. -/
def doing (a : HostAction) (s : State) : State := { s with script := [a] }

theorem witness_EncodedCommandDecodes : Instr.enc.wellFormed = true := rfl

theorem witness_StepRunsTheDecodedCommand :
    (doing (.writeReg 0 7#32) hi).script = .writeReg 0 7#32 :: [] ∧ decode 7#32 = .ok .enc := by decide

theorem witness_PlacedWordIsTheNextCommand : decode 0x0000000C#32 = .ok .srst ∧ decode 0#32 = .ok .nop := by decide

/-- Clause by clause: the neighbours of the release words with an error latched, the first and the last illegal
word, a legal one. -/
theorem witness_CommandWriteFollowsTheAcceptanceOrder :
    ¬IsReleaseWord 0xA#32 ∧ ¬IsReleaseWord 0xD#32 ∧ stuck.status.err = true ∧
    State.reset.status.err = false ∧ ¬WellFormedWord 0xD#32 ∧ ¬WellFormedWord 0xFFFFFFFF#32 ∧
    decode 0xA#32 = .ok .dec := by decide

theorem witness_LatchedErrorRefusesCommands : Instr.enc ≠ .clr ∧ Instr.enc ≠ .srst ∧ stuck.status.err = true := by
  decide

theorem witness_IdleBlockStaysAsItIs : hi.script = [] := rfl

/-- Clause by clause, at the edge of each condition: 33 bytes and 32, a cursor at HLEN and one before. -/
theorem witness_CommandsRaiseExactlyTheTabledErrors :
    (CfgWhen .grid (sized 0 2) ∧ (sized 0 2).status.err = false) ∧
    (¬CfgWhen .b2h { State.reset with blen := 33#32 } ∧ CapWhen .b2h { State.reset with blen := 33#32 }) ∧
    (¬CfgWhen .drawc { State.reset with hlen := 2#32, ccol := 2#32 } ∧
      ¬CapWhen .drawc { State.reset with hlen := 2#32, ccol := 2#32 } ∧
      RangeWhen .drawc { State.reset with hlen := 2#32, ccol := 2#32 }) ∧
    Clean .b2h { State.reset with blen := 32#32 } ∧ Clean .drawc { State.reset with hlen := 2#32, ccol := 1#32 } := by
  simp only [Clean, CfgWhen, CapWhen, RangeWhen]; decide

/-- The state H2B leaves when 65 digits are claimed. -/
theorem witness_RaisingCommandWritesOnlyTheLatch :
    State.reset.status.err = false ∧
    exec .h2b { State.reset with hlen := 65#32 } = .next (({ State.reset with hlen := 65#32 } : State).raise .cap) ∧
    (({ State.reset with hlen := 65#32 } : State).raise .cap).status.err = true :=
  ⟨rfl, exec_of_raise (by decide) (by decide), rfl⟩

theorem witness_RetryAfterClearFailsTheSameWay :
    exec .grid (sized 0 2) = .next ((sized 0 2).raise .cfg) ∧ ((sized 0 2).raise .cfg).status.err = true ∧
    exec .clr ((sized 0 2).raise .cfg) = .next ((sized 0 2).raise .cfg).release ∧ (sized 0 2).status.err = false :=
  ⟨exec_of_raise (by decide) (by decide), rfl, rfl, rfl⟩

theorem witness_LatchedErrorStaysUntilReleased :
    (doing (.writeReg 0 7#32) stuck).status.err = true ∧
    (∀ w, IsReleaseWord w → HostAction.writeReg 0 w ∉ (doing (.writeReg 0 7#32) stuck).script) ∧
    runSteps 1 (doing (.writeReg 0 7#32) stuck) = .next stuck := by
  refine ⟨rfl, ?_, rfl⟩
  rintro w (rfl | rfl) <;> decide

theorem witness_HexConversionErrorIsUnreachable :
    (doing (.writeReg 0 0xD#32) State.reset).errcode.toNat ≤ 4 ∧
    step (doing (.writeReg 0 0xD#32) State.reset) = .next (State.reset.raise .illCmd) := ⟨by decide, rfl⟩

theorem witness_DigitToBitsWritesQuad : State.reset.status.err = false := rfl

theorem witness_BitsToDigitWritesDig : ({ State.reset with quad := 6#4 } : State).status.err = false := rfl

theorem witness_ExpandAndPairElementwise :
    1 < [0x48#8, 0x69#8].length ∧ 2 * 1 + 1 < [4#4, 8#4, 6#4, 9#4].length := by decide

theorem witness_PairAndExpandLaws : [4#4, 8#4].length % 2 = 0 ∧ [4#4, 8#4, 6#4].length % 2 = 1 := by decide

/-- One byte too many, and at the capacity. -/
theorem witness_BytesToHexResult :
    State.reset.status.err = false ∧ State.reset.config.Legal ∧
    State.reset.config.maxBytes < ({ State.reset with blen := 33#32 } : State).blen.toNat ∧
    ({ State.reset with blen := 32#32 } : State).blen.toNat ≤ State.reset.config.maxBytes := by decide

/-- One digit too many, and at the capacity. -/
theorem witness_HexToBytesResult :
    State.reset.status.err = false ∧
    State.reset.config.maxDigits < ({ State.reset with hlen := 65#32 } : State).hlen.toNat ∧
    ({ State.reset with hlen := 64#32 } : State).hlen.toNat ≤ State.reset.config.maxDigits := by decide

/-- No cell size; one digit, one pixel of width and one of height too many; and an image exactly MAX_W wide, one
exactly MAX_H high, the empty one. -/
theorem witness_LayoutResult :
    (sized 0 2).cell = 0#32 ∧
    (∀ s ∈ [({ sized 1 2 with hlen := 65#32 } : State), { sized 20 2 with hlen := 33#32 }, sized 65 2],
      s.status.err = false ∧ s.config.Legal ∧ s.cell ≠ 0#32 ∧ (s.config.maxDigits < s.hlen.toNat ∨
      s.config.maxW < max 1 s.hlen.toNat * s.cell.toNat ∨ s.config.maxH < s.cell.toNat)) ∧
    (∀ s ∈ [({ sized 20 2 with hlen := 32#32 } : State), { sized 64 2 with hlen := 10#32 }, sized 1 2],
      s.status.err = false ∧ s.config.Legal ∧ s.cell ≠ 0#32 ∧ s.hlen.toNat ≤ s.config.maxDigits ∧
      max 1 s.hlen.toNat * s.cell.toNat ≤ s.config.maxW ∧ s.cell.toNat ≤ s.config.maxH) := by decide

/-- No line width; one pixel of width too many; the cursor at HLEN; and the last digit of a full HB, the only digit. -/
theorem witness_DrawCellResult :
    (sized 1 0).lw = 0#32 ∧
    (({ sized 1 1 with imw := 641#32 } : State).cell ≠ 0#32 ∧ ({ sized 1 1 with imw := 641#32 } : State).lw ≠ 0#32 ∧
      State.reset.config.maxW < ({ sized 1 1 with imw := 641#32 } : State).imw.toNat) ∧
    (∀ s ∈ [({ sized 1 1 with hlen := 1#32, ccol := 1#32 } : State)],
      s.status.err = false ∧ s.cell ≠ 0#32 ∧ s.lw ≠ 0#32 ∧ s.hlen.toNat ≤ s.config.maxDigits ∧
      s.imw.toNat ≤ s.config.maxW ∧ s.imh.toNat ≤ s.config.maxH ∧ s.hlen.toNat ≤ s.ccol.toNat) ∧
    (∀ s ∈ [({ State.reset with hlen := 64#32, ccol := 63#32, imw := 640#32, imh := 64#32 } : State),
        { sized 1 1 with hlen := 1#32 }],
      s.status.err = false ∧ s.cell ≠ 0#32 ∧ s.lw ≠ 0#32 ∧ s.hlen.toNat ≤ s.config.maxDigits ∧
      s.imw.toNat ≤ s.config.maxW ∧ s.imh.toNat ≤ s.config.maxH ∧ s.ccol.toNat < s.hlen.toNat) := by decide

/-- No line width; 17 bytes at the default cell size; and no byte, and as many as fit MAX_W there (V26). -/
theorem witness_EncodeResult :
    (sized 20 0).lw = 0#32 ∧
    (∀ s ∈ [({ State.reset with blen := 17#32 } : State), { sized 1 1 with blen := 33#32 }, sized 65 1],
      s.status.err = false ∧ s.config.Legal ∧ s.cell ≠ 0#32 ∧ s.lw ≠ 0#32 ∧ (s.config.maxBytes < s.blen.toNat ∨
      s.config.maxW < max 1 (2 * s.blen.toNat) * s.cell.toNat ∨ s.config.maxH < s.cell.toNat)) ∧
    (∀ s ∈ [State.reset, ({ State.reset with blen := 16#32 } : State)],
      s.status.err = false ∧ s.config.Legal ∧ s.cell ≠ 0#32 ∧ s.lw ≠ 0#32 ∧ s.blen.toNat ≤ s.config.maxBytes ∧
      max 1 (2 * s.blen.toNat) * s.cell.toNat ≤ s.config.maxW ∧ s.cell.toNat ≤ s.config.maxH) := by decide

theorem clean_one : Clean .enc one ∧ Clean .enc hi ∧ Clean .enc (sized 1 1) ∧ Clean .enc (bytesIn [0xB3#8] (sized 4 1)) := by
  simp only [Clean, CfgWhen, CapWhen, RangeWhen]; decide

theorem witness_EncodeDependsOnItsInputsOnly :
    one.status.err = false ∧ one.config.Legal ∧ Clean .enc one ∧
    (∀ k < one.blen.toNat, one.mem.byteAt k = ({ one with mem := one.mem.setDigit 0 9#4 } : State).mem.byteAt k) ∧
    exec .enc one = .next (encBody one) ∧
    exec .enc { one with hlen := 9#32, ccol := 5#32, mem := one.mem.setDigit 0 9#4 } =
      .next (encBody { one with hlen := 9#32, ccol := 5#32, mem := one.mem.setDigit 0 9#4 }) :=
  ⟨rfl, by decide, clean_one.1, fun _ _ => rfl, exec_of_clean (by decide) (by decide),
    exec_of_clean (by decide) (by decide)⟩

theorem witness_EncodeEqualsItsParts : hi.status.err = false ∧ hi.config.Legal ∧ Clean .enc hi :=
  ⟨rfl, by decide, clean_one.2.1⟩

/-- The state with one digit to draw. -/
def drawing : State := digitsIn [0xF#4] { sized 6 2 with imw := 6#32, imh := 6#32 }

theorem witness_DrawingACellTwiceIsDrawingItOnce :
    drawing.status.err = false ∧ Clean .drawc drawing ∧ exec .drawc drawing = .next (drawcBody drawing) ∧
    exec .drawc { drawcBody drawing with ccol := drawing.ccol } =
      .next (drawcBody { drawcBody drawing with ccol := drawing.ccol }) := by
  refine ⟨rfl, ?_, exec_of_clean (by decide) (by decide), exec_of_clean (by decide) (by decide)⟩
  simp only [Clean, CfgWhen, CapWhen, RangeWhen]; decide

theorem witness_SegmentsLightTheirOwnProbes : 2 ≤ 2 ∧ 1 ≤ 1 := by decide

/-- No cell size; 65 cells; and a full grid, an image of no column. -/
theorem witness_GridResult :
    (sized 0 2).cell = 0#32 ∧
    (∀ s ∈ [({ sized 1 2 with imw := 13#32, imh := 5#32 } : State), { sized 20 2 with imw := 641#32 }],
      s.status.err = false ∧ s.cell ≠ 0#32 ∧ (s.config.maxW < s.imw.toNat ∨ s.config.maxH < s.imh.toNat ∨
      s.config.maxDigits < ceilingOf s.imw.toNat s.cell.toNat * ceilingOf s.imh.toNat s.cell.toNat)) ∧
    (∀ s ∈ [({ sized 1 2 with imw := 16#32, imh := 4#32 } : State), { sized 20 2 with imh := 20#32 }],
      s.status.err = false ∧ s.cell ≠ 0#32 ∧ s.imw.toNat ≤ s.config.maxW ∧ s.imh.toNat ≤ s.config.maxH ∧
      ceilingOf s.imw.toNat s.cell.toNat * ceilingOf s.imh.toNat s.cell.toNat ≤ s.config.maxDigits) := by decide

/-- HB full; the cursor past the last row; and one column before the last, in the last, and with one place left in
HB. -/
theorem witness_ProbeCellResult :
    (sized 0 2).cell = 0#32 ∧
    (p2.cell ≠ 0#32 ∧ p2.config.maxDigits ≤ ({ p2 with hlen := 64#32 } : State).hlen.toNat) ∧
    (∀ s ∈ [({ p2 with cols := 2#32, rows := 2#32, crow := 2#32 } : State)],
      s.status.err = false ∧ s.config.Legal ∧ s.cell ≠ 0#32 ∧ s.imw.toNat ≤ s.config.maxW ∧
      s.imh.toNat ≤ s.config.maxH ∧ s.hlen.toNat < s.config.maxDigits ∧
      (s.cols.toNat ≤ s.ccol.toNat ∨ s.rows.toNat ≤ s.crow.toNat)) ∧
    (∀ s ∈ [({ p2 with cols := 2#32, rows := 2#32 } : State), { p2 with cols := 2#32, rows := 2#32, ccol := 1#32 },
        { p2 with cols := 2#32, rows := 2#32, ccol := 1#32, crow := 1#32, hlen := 63#32 }],
      s.status.err = false ∧ s.config.Legal ∧ s.cell ≠ 0#32 ∧ s.imw.toNat ≤ s.config.maxW ∧
      s.imh.toNat ≤ s.config.maxH ∧ s.hlen.toNat < s.config.maxDigits ∧ s.ccol.toNat < s.cols.toNat ∧
      s.crow.toNat < s.rows.toNat) ∧
    ¬(1 + 1 < ({ p2 with cols := 2#32 } : State).cols.toNat) := by decide

/-- No cell size; an image too wide; and four cells, an odd number of cells, none. -/
theorem witness_DecodeResult :
    (sized 0 2).cell = 0#32 ∧
    (p2.cell ≠ 0#32 ∧ p2.config.maxW < ({ p2 with imw := 641#32 } : State).imw.toNat) ∧
    (∀ s ∈ [p2, ({ p2 with imw := 6#32, imh := 1#32 } : State), { p2 with imw := 0#32 }],
      s.status.err = false ∧ s.config.Legal ∧ s.cell ≠ 0#32 ∧ s.imw.toNat ≤ s.config.maxW ∧
      s.imh.toNat ≤ s.config.maxH ∧
      ceilingOf s.imw.toNat s.cell.toNat * ceilingOf s.imh.toNat s.cell.toNat ≤ s.config.maxDigits) := by decide

theorem clean_p2 : Clean .dec p2 ∧ Clean .grid p2 := by
  simp only [Clean, CfgWhen, CapWhen, RangeWhen]; decide

/-- Two states that differ in the line width, in what HB holds, and in a green channel. -/
theorem witness_DecodeDependsOnLitPixelsOnly :
    p2.status.err = false ∧ p2.config.Legal ∧ Clean .dec p2 ∧
    (∀ x y, IsLit p2 x y ↔ IsLit { p2 with lw := 9#32, mem := (p2.mem.setPixel 1 1 ⟨201#8, 7#8, 8#8⟩).setDigit 0 3#4 } x y) ∧
    exec .dec p2 = .next (decBody p2) ∧
    exec .dec { p2 with lw := 9#32, mem := (p2.mem.setPixel 1 1 ⟨201#8, 7#8, 8#8⟩).setDigit 0 3#4 } =
      .next (decBody { p2 with lw := 9#32, mem := (p2.mem.setPixel 1 1 ⟨201#8, 7#8, 8#8⟩).setDigit 0 3#4 }) := by
  refine ⟨rfl, by decide, clean_p2.1, fun x y => ?_, exec_of_clean (by decide) (by decide),
    exec_of_clean (by decide) (by decide)⟩
  have h : (p2.mem.pixelAt 1 1).r.toNat = 255 := by decide
  simp only [IsLit, pixelAt_setDigit, pixelAt_setPixel]
  by_cases hxy : x = 1 ∧ y = 1
  · obtain ⟨rfl, rfl⟩ := hxy
    simp [h]
  · simp [hxy]

theorem witness_DecodeEqualsItsParts : p2.status.err = false ∧ p2.config.Legal ∧ Clean .dec p2 :=
  ⟨rfl, by decide, clean_p2.1⟩

/-- Before the first cell and after the last. -/
theorem witness_ScanPositionCountsTheDigits :
    p2.status.err = false ∧ p2.config.Legal ∧ Clean .grid p2 ∧
    0 ≤ ceilingOf p2.imw.toNat p2.cell.toNat * ceilingOf p2.imh.toNat p2.cell.toNat ∧
    4 ≤ ceilingOf p2.imw.toNat p2.cell.toNat * ceilingOf p2.imh.toNat p2.cell.toNat :=
  ⟨rfl, by decide, clean_p2.2, by decide, by decide⟩

/-- A cell of size 2 at the image's edge, drawn for the backslash alone. -/
def diagonal : State :=
  { sized 2 1 with imw := 2#32, imh := 2#32,
                   mem := (Memory.empty.setPixel 0 0 Pixel.white).setPixel 1 1 Pixel.white }

theorem witness_DrawnCellIsProbedByTheFormula :
    diagonal.cell.toNat = 2 ∧ 2 ≤ 2 ∧ 1 ≤ 1 ∧ (0 + 1) * 2 ≤ diagonal.imw.toNat ∧ (0 + 1) * 2 ≤ diagonal.imh.toNat ∧
    (∀ u v, u < 2 → v < 2 → diagonal.mem.pixelAt (0 * 2 + u) (0 * 2 + v) =
      if covered ⟨true, false, false, false⟩ 2 1 u v = true then ⟨255#8, 255#8, 255#8⟩ else ⟨0#8, 0#8, 0#8⟩) := by
  refine ⟨by decide, by decide, by decide, by decide, by decide, fun u v hu hv => ?_⟩
  interval_cases u <;> interval_cases v <;> decide

/-- The smallest regular cell, and a map that is `T` on all sixteen digits. -/
theorem witness_RegularRegimeClosedForm :
    RegularRegime 6 2 ∧ 2 ≤ 6 ∧ 2 ≤ 2 ∧ ∀ d, probedFlags 6 2 (flagsOf d) = flagsOf (survivor d) := by decide

theorem witness_EncodeThenDecodeMapsEveryDigit :
    one.status.err = false ∧ one.config.Legal ∧ Clean .enc one ∧ 0 < one.blen.toNat ∧ 2 ≤ one.cell.toNat ∧
    exec .enc one = .next (encBody one) ∧ exec .dec (encBody one) = .next (decBody (encBody one)) :=
  ⟨rfl, by decide, clean_one.1, by decide, by decide, exec_of_clean (by decide) (by decide),
    exec_of_clean (by decide +kernel) (by decide +kernel)⟩

theorem witness_RoundTripInTheRegularRegime :
    one.status.err = false ∧ one.config.Legal ∧ Clean .enc one ∧ 0 < one.blen.toNat ∧
    RegularRegime one.cell.toNat one.lw.toNat := ⟨rfl, by decide, clean_one.1, by decide, by decide⟩

/-- One byte at line width 1 and the smallest cell of R97 (a). -/
def thin : State := bytesIn [0xB3#8] (sized 4 1)

theorem witness_WidthOneLosesTheEdges :
    thin.status.err = false ∧ thin.config.Legal ∧ Clean .enc thin ∧ 0 < thin.blen.toNat ∧ thin.lw = 1#32 ∧
    4 ≤ thin.cell.toNat ∧ exec .enc thin = .next (encBody thin) ∧
    exec .dec (encBody thin) = .next (decBody (encBody thin)) ∧ 0 < (encBody thin).hlen.toNat :=
  ⟨rfl, by decide, clean_one.2.2.2, by decide, rfl, by decide, exec_of_clean (by decide) (by decide),
    exec_of_clean (by decide +kernel) (by decide +kernel), by decide +kernel⟩

theorem witness_CellSizeOneReadsTheNextCell :
    (redsIn 2 1 [(1, 0, 255#8)] (sized 1 1)).cell = 1#32 ∧ (redsIn 2 1 [(1, 0, 255#8)] (sized 1 1)).imh = 1#32 ∧
    (redsIn 2 1 [(1, 0, 255#8)] (sized 1 1)).lit (0 + 1) 0 = true := by decide

theorem witness_EmptyInputRoundTrip :
    (sized 1 1).status.err = false ∧ (sized 1 1).config.Legal ∧ Clean .enc (sized 1 1) ∧ (sized 1 1).blen = 0#32 ∧
    (bytesIn [0#8] (sized 4 2)).status.err = false ∧ (bytesIn [0#8] (sized 4 2)).config.Legal ∧
    Clean .enc (bytesIn [0#8] (sized 4 2)) ∧ (bytesIn [0#8] (sized 4 2)).blen = 1#32 ∧
    (bytesIn [0#8] (sized 4 2)).mem.byteAt 0 = 0#8 := by
  refine ⟨rfl, by decide, clean_one.2.2.1, rfl, rfl, by decide, ?_, by decide, by decide⟩
  simp only [Clean, CfgWhen, CapWhen, RangeWhen]; decide

theorem witness_DiagnosticsAreNeverRead : exec .enc one = .next (encBody one) := exec_of_clean (by decide) (by decide)

theorem witness_HostReadsRegisters :
    (doing (.readReg 15) hi).script = .readReg 15 :: [] ∧ 15 < 16 ∧ (doing (.readReg 0) hi).script = .readReg 0 :: [] := by
  decide

/-- A write to the first and the last register with a clause, and to those the host may not write. -/
theorem witness_HostWritesRegisters :
    (∀ n ∈ [1, 2, 3, 4, 5, 6, 7, 8, 9, 10, 11, 12, 13, 14, 15],
      (doing (.writeReg n 0xFFFFFFFF#32) stuck).script = .writeReg n 0xFFFFFFFF#32 :: []) := by decide

/-- Each primitive at the last index the block has. -/
theorem witness_HostAccessesBuffers :
    (∀ a ∈ [HostAction.readByte 31, .readDigit 63, .readPixel 639 63, .writeByte 31 5#8, .writeDigit 63 5#4,
        .writePixel 639 63 Pixel.white],
      (doing a stuck).script = a :: [] ∧ a.WellFormed (doing a stuck).config) := by
  intro a ha
  simp only [List.mem_cons, List.not_mem_nil, or_false] at ha
  rcases ha with rfl | rfl | rfl | rfl | rfl | rfl <;> decide

/-- The last action with a meaning of each kind, and clause by clause the first number or index without. -/
theorem witness_StepCompletesExactlyOnMeaningfulActions :
    (∀ a ∈ [HostAction.readReg 15, .writeReg 15 0#32, .readByte 31, .writeByte 31 0#8, .readDigit 63,
        .writeDigit 63 0#4, .readPixel 639 63, .writePixel 639 63 Pixel.white],
      (doing a hi).script = a :: [] ∧ a.WellFormed (doing a hi).config) ∧
    (∀ a ∈ [HostAction.readReg 16, .writeReg 16 0#32, .readByte 32, .writeByte 32 0#8, .readDigit 64,
        .writeDigit 64 0#4, .readPixel 640 63, .readPixel 639 64, .writePixel 640 63 Pixel.white,
        .writePixel 639 64 Pixel.white],
      (doing a hi).script = a :: []) ∧
    hi.config.maxBytes ≤ 32 ∧ hi.config.maxDigits ≤ 64 ∧ hi.config.maxW ≤ 640 ∧ hi.config.maxH ≤ 64 := by
  refine ⟨?_, fun _ _ => rfl, by decide⟩
  intro a ha
  simp only [List.mem_cons, List.not_mem_nil, or_false] at ha
  rcases ha with rfl | rfl | rfl | rfl | rfl | rfl | rfl | rfl <;> decide

theorem witness_EveryMeaningfulRunEnds :
    ∀ a ∈ (doing (.writeReg 0 7#32) hi).script, a.WellFormed (doing (.writeReg 0 7#32) hi).config := by
  intro a ha
  obtain rfl : a = .writeReg 0 7#32 := List.mem_singleton.1 ha
  decide

/-- Capacities and contents other than `State.reset`'s, each buffer at its last index. -/
theorem witness_InvariantHoldsAfterReset :
    (Config.mk 2 1 1).Legal ∧ (Memory.mk [(0, 9#8)] [(1, 7#4)] [(0, [(0, Pixel.white)])]).wf ∧
    (Memory.mk [(0, 9#8)] [(1, 7#4)] [(0, [(0, Pixel.white)])]).within (Config.mk 2 1 1) := by decide

theorem witness_StepKeepsTheInvariant :
    (doing (.writeByte 31 5#8) State.reset).Inv ∧
    step (doing (.writeByte 31 5#8) State.reset) = .next { State.reset with mem := Memory.empty.setByte 31 5#8 } :=
  ⟨by decide, rfl⟩

theorem witness_CommandsLeaveTheConfigurationAlone :
    exec .enc one = .next (encBody one) ∧ Instr.enc ≠ .srst := ⟨exec_of_clean (by decide) (by decide), by decide⟩

/-- A step that sets ODD, one that sets EMPTY, one that clears all. -/
theorem witness_FlagWritesAreTheListedOnes :
    exec .h2b (digitsIn [5#4] State.reset) = .next (h2bBody (digitsIn [5#4] State.reset)) ∧
    (h2bBody (digitsIn [5#4] State.reset)).status.odd ≠ (digitsIn [5#4] State.reset).status.odd ∧
    exec .layout (sized 1 1) = .next (layoutBody (sized 1 1)) ∧
    (layoutBody (sized 1 1)).status.empty ≠ (sized 1 1).status.empty ∧
    exec .clr stuck = .next stuck.release ∧ stuck.release.status.err ≠ stuck.status.err ∧
    (digitsIn [5#4] State.reset).status.err = false ∧ (h2bBody (digitsIn [5#4] State.reset)).status.err = false :=
  ⟨exec_of_clean (by decide) (by decide), by decide, exec_of_clean (by decide) (by decide), by decide, rfl, by decide,
    by decide, by decide⟩

theorem witness_BuffersAreWrittenOnlyByTheirCommands :
    exec .h2b (digitsIn [5#4, 1#4] State.reset) = .next (h2bBody (digitsIn [5#4, 1#4] State.reset)) ∧
    (h2bBody (digitsIn [5#4, 1#4] State.reset)).mem.bb ≠ (digitsIn [5#4, 1#4] State.reset).mem.bb ∧
    exec .b2h (bytesIn [5#8] State.reset) = .next (b2hBody (bytesIn [5#8] State.reset)) ∧
    (b2hBody (bytesIn [5#8] State.reset)).mem.hb ≠ (bytesIn [5#8] State.reset).mem.hb ∧
    exec .drawc drawing = .next (drawcBody drawing) ∧ (drawcBody drawing).mem.pb ≠ drawing.mem.pb :=
  ⟨exec_of_clean (by decide) (by decide), by decide, exec_of_clean (by decide) (by decide), by decide,
    exec_of_clean (by decide) (by decide), by decide⟩

/-- Each command that moves the cursor, in a state where it does: DEC on a grid with columns and on one without,
PROBEC one column before the last and in the last. -/
def movers : List (Instr × State) :=
  [(.layout, { sized 1 1 with ccol := 5#32 }), (.grid, { p2 with crow := 1#32 }),
    (.srst, { State.reset with crow := 7#32 }), (.enc, one), (.dec, p2),
    (.dec, { p2 with imw := 0#32, ccol := 1#32 }), (.drawc, drawing),
    (.probec, { p2 with cols := 2#32, rows := 2#32 }),
    (.probec, { p2 with cols := 2#32, rows := 2#32, ccol := 1#32 })]

theorem witness_CursorMovesOnlyAsListed :
    (∀ p ∈ movers, exec p.1 p.2 = .next (bodyOf p.1 p.2) ∧
      ((bodyOf p.1 p.2).ccol ≠ p.2.ccol ∨ (bodyOf p.1 p.2).crow ≠ p.2.crow) ∧ p.2.config.Legal) ∧
    (bodyOf .dec p2).cols ≠ 0#32 ∧ (bodyOf .dec { p2 with imw := 0#32, ccol := 1#32 }).cols = 0#32 ∧
    0 + 1 < 2 ∧ ¬1 + 1 < 2 := by
  have h : ∀ p ∈ movers, (p.2.status.err = false ∧ checkOf p.1 p.2 = none) ∧
      ((bodyOf p.1 p.2).ccol ≠ p.2.ccol ∨ (bodyOf p.1 p.2).crow ≠ p.2.crow) ∧ p.2.config.Legal := by
    decide +kernel
  exact ⟨fun p hp => ⟨exec_of_clean (h p hp).1.1 (h p hp).1.2, (h p hp).2⟩, by decide +kernel⟩

theorem witness_BulkOperationsAreThePseudocodeLoops : one.mem.wf ∧ p2.mem.wf := by decide

end Sys2Proof.Tests
end

/-! # Proofs: the state, its invariant, and what the host's actions and the commands may touch (10_state.md) -/

namespace Sys2Proof.Machine

/-! ## Checks: a command's check passes exactly when no column of R113 applies -/

theorem ite_some_eq_none_iff {α : Type} {p : Prop} [Decidable p] {a : α} {o : Option α} :
    (if p then some a else o) = none ↔ ¬p ∧ o = none := by
  by_cases h : p <;> simp [h]

/-- The machine's checks, written over the registers' numbers, are the table of R113. -/
theorem checkOf_eq_none_iff (i : Instr) (s : State) : checkOf i s = none ↔ Clean i s := by
  cases i <;>
    simp only [checkOf, noCheck, b2hCheck, h2bCheck, layoutCheck, drawcCheck, encCheck, gridCheck, probecCheck,
      ite_some_eq_none_iff, BitVec.toNat_eq, BitVec.toNat_ofNat, Nat.zero_mod, Clean, CfgWhen, CapWhen, RangeWhen,
      ceilingOf] <;>
    tauto

/-- Every command answers a next state, in every state (R38, R103). -/
theorem exec_completes (i : Instr) (s : State) : ∃ t, exec i s = .next t := by
  by_cases hc : i = .clr
  · exact ⟨_, hc ▸ exec_clr s⟩
  by_cases hs : i = .srst
  · exact ⟨_, hs ▸ exec_srst s⟩
  rw [exec_eq_command hc hs]
  cases he : s.status.err with
  | true => exact ⟨_, command_of_err he⟩
  | false =>
    cases hk : checkOf i s with
    | some e => exact ⟨_, command_of_raise he hk⟩
    | none => exact ⟨_, command_of_clean he hk⟩

/-! ## The host's actions: what each does, that a meaningful one completes, that any other is refused -/

/-- Everything a register write can do: run CMD's command, or store in registers the host may write (R26). -/
theorem writeReg_cases {n : Nat} {v : Word} {s t : State} (h : s.writeReg n v = .next t) :
    (n = 0 ∧ s.writeCmd v = .next t) ∨
      t = { s with cell := t.cell, lw := t.lw, blen := t.blen, hlen := t.hlen, imw := t.imw, imh := t.imh,
                   ccol := t.ccol, crow := t.crow, dig := t.dig, quad := t.quad } := by
  unfold State.writeReg at h
  split at h
  case h_1 => exact .inl ⟨rfl, h⟩
  all_goals cases h
  all_goals exact .inr rfl

theorem hostAct_readReg_of_some {n : Nat} {v : Word} {s : State} (h : s.readReg n = some v) :
    hostAct (.readReg n) s = .next (s.reply (.reg v)) := by
  simp [hostAct, h]

theorem hostAct_readReg_of_none {n : Nat} {s : State} (h : s.readReg n = none) :
    hostAct (.readReg n) s = .refused (.noSuchRegister n) := by
  simp [hostAct, h]

theorem hostAct_readByte (k : Nat) (s : State) : hostAct (.readByte k) s =
    if k < s.config.maxBytes then .next (s.reply (.byte (s.mem.byteAt k))) else .refused (.noSuchByte k) := rfl

theorem hostAct_writeByte (k : Nat) (v : Byte) (s : State) : hostAct (.writeByte k v) s =
    if k < s.config.maxBytes then .next { s with mem := s.mem.setByte k v } else .refused (.noSuchByte k) := rfl

theorem hostAct_readDigit (k : Nat) (s : State) : hostAct (.readDigit k) s =
    if k < s.config.maxDigits then .next (s.reply (.digit (s.mem.digitAt k))) else .refused (.noSuchDigit k) := rfl

theorem hostAct_writeDigit (k : Nat) (v : Digit) (s : State) : hostAct (.writeDigit k v) s =
    if k < s.config.maxDigits then .next { s with mem := s.mem.setDigit k v } else .refused (.noSuchDigit k) := rfl

theorem hostAct_readPixel (x y : Nat) (s : State) : hostAct (.readPixel x y) s =
    if x < s.config.maxW ∧ y < s.config.maxH then .next (s.reply (.pixel (s.mem.pixelAt x y)))
    else .refused (.noSuchPixel x y) := rfl

theorem hostAct_writePixel (x y : Nat) (p : Pixel) (s : State) : hostAct (.writePixel x y p) s =
    if x < s.config.maxW ∧ y < s.config.maxH then .next { s with mem := s.mem.setPixel x y p }
    else .refused (.noSuchPixel x y) := rfl

/-- Everything an action of the host can do: a read adds its reply, a register write does what `writeReg` does, and a
buffer write puts one element at an index the block has (R26, R37, R41). -/
theorem hostAct_cases {a : HostAction} {s t : State} (h : hostAct a s = .next t) :
    (∃ r, t = s.reply r) ∨ (∃ n v, a = .writeReg n v ∧ s.writeReg n v = .next t) ∨
      (∃ k v, k < s.config.maxBytes ∧ t = { s with mem := s.mem.setByte k v }) ∨
      (∃ k v, k < s.config.maxDigits ∧ t = { s with mem := s.mem.setDigit k v }) ∨
      (∃ x y p, x < s.config.maxW ∧ y < s.config.maxH ∧ t = { s with mem := s.mem.setPixel x y p }) := by
  cases a with
  | readReg n =>
    cases hv : s.readReg n with
    | some v => rw [hostAct_readReg_of_some hv] at h; cases h; exact .inl ⟨_, rfl⟩
    | none => rw [hostAct_readReg_of_none hv] at h; cases h
  | writeReg n v => exact .inr (.inl ⟨n, v, rfl, h⟩)
  | readByte k =>
    rw [hostAct_readByte] at h
    split at h <;> cases h
    exact .inl ⟨_, rfl⟩
  | writeByte k v =>
    rw [hostAct_writeByte] at h
    split at h <;> cases h
    exact .inr (.inr (.inl ⟨k, v, ‹_›, rfl⟩))
  | readDigit k =>
    rw [hostAct_readDigit] at h
    split at h <;> cases h
    exact .inl ⟨_, rfl⟩
  | writeDigit k v =>
    rw [hostAct_writeDigit] at h
    split at h <;> cases h
    exact .inr (.inr (.inr (.inl ⟨k, v, ‹_›, rfl⟩)))
  | readPixel x y =>
    rw [hostAct_readPixel] at h
    split at h <;> cases h
    exact .inl ⟨_, rfl⟩
  | writePixel x y p =>
    rw [hostAct_writePixel] at h
    split at h <;> cases h
    exact .inr (.inr (.inr (.inr ⟨x, y, p, ‹_ ∧ _›.1, ‹_ ∧ _›.2, rfl⟩)))

theorem writeCmd_completes (w : Word) (s : State) : ∃ t, s.writeCmd w = .next t := by
  cases hd : decode w with
  | ok i => rw [writeCmd_of_ok hd]; exact exec_completes i s
  | error e =>
    rw [writeCmd_of_error hd]
    cases he : s.status.err with
    | true => exact ⟨_, accept_of_err he⟩
    | false => exact ⟨_, accept_of_ok he⟩

theorem writeReg_of_ge {n : Nat} (h : 16 ≤ n) (v : Word) (s : State) :
    s.writeReg n v = .refused (.noSuchRegister n) := by
  obtain ⟨m, rfl⟩ := Nat.exists_eq_add_of_le' h
  rfl

theorem readReg_of_ge {n : Nat} (h : 16 ≤ n) (s : State) : s.readReg n = none := by
  obtain ⟨m, rfl⟩ := Nat.exists_eq_add_of_le' h
  rfl

/-- A register the block has completes: CMD by its command, any other by its store. -/
theorem writeReg_completes {n : Nat} (h : n < 16) (v : Word) (s : State) : ∃ t, s.writeReg n v = .next t := by
  rcases Nat.eq_zero_or_pos n with rfl | hpos
  · exact writeCmd_completes v s
  · interval_cases n <;> exact ⟨_, rfl⟩

theorem toNat_toWord (f : Status) : f.toWord.toNat = f.err.toNat + 2 * f.odd.toNat + 4 * f.empty.toNat := by
  obtain ⟨a, b, c⟩ := f
  revert a b c; decide

/-- The sixteen rows of R11 as a host read sees them, zero-extended (R26). -/
theorem readReg_of_lt {n : Nat} (h : n < 16) (s : State) :
    ∃ v, s.readReg n = some v ∧
      v.toNat = [0, s.status.err.toNat + 2 * s.status.odd.toNat + 4 * s.status.empty.toNat, s.errcode.toNat,
        s.cell.toNat, s.lw.toNat, s.blen.toNat, s.hlen.toNat, s.imw.toNat, s.imh.toNat, s.cols.toNat,
        s.rows.toNat, s.ccol.toNat, s.crow.toNat, s.dig.toNat, s.quad.toNat, 200].getD n 0 := by
  have herr : (s.errcode.setWidth 32).toNat = s.errcode.toNat := BitVec.toNat_setWidth_of_le (by decide)
  have hdig : (s.dig.setWidth 32).toNat = s.dig.toNat := BitVec.toNat_setWidth_of_le (by decide)
  have hquad : (s.quad.setWidth 32).toNat = s.quad.toNat := BitVec.toNat_setWidth_of_le (by decide)
  interval_cases n
  exacts [⟨_, rfl, rfl⟩, ⟨_, rfl, toNat_toWord s.status⟩, ⟨_, rfl, herr⟩, ⟨_, rfl, rfl⟩, ⟨_, rfl, rfl⟩, ⟨_, rfl, rfl⟩,
    ⟨_, rfl, rfl⟩, ⟨_, rfl, rfl⟩, ⟨_, rfl, rfl⟩, ⟨_, rfl, rfl⟩, ⟨_, rfl, rfl⟩, ⟨_, rfl, rfl⟩, ⟨_, rfl, rfl⟩,
    ⟨_, rfl, hdig⟩, ⟨_, rfl, hquad⟩, ⟨_, rfl, rfl⟩]

theorem hostAct_completes {a : HostAction} {s : State} (h : a.WellFormed s.config) : ∃ t, hostAct a s = .next t := by
  cases a with
  | readReg n =>
    obtain ⟨v, hv, -⟩ := readReg_of_lt h s
    exact ⟨_, hostAct_readReg_of_some hv⟩
  | writeReg n v => exact writeReg_completes h v s
  | readByte k => exact ⟨_, if_pos h⟩
  | writeByte k v => exact ⟨_, if_pos h⟩
  | readDigit k => exact ⟨_, if_pos h⟩
  | writeDigit k v => exact ⟨_, if_pos h⟩
  | readPixel x y => exact ⟨_, if_pos h⟩
  | writePixel x y p => exact ⟨_, if_pos h⟩

/-- Settles O51: taking the action from the script changes no capacity, so the action alone decides. -/
theorem stepCompletesExactlyOnMeaningfulActions : Obligations.StepCompletesExactlyOnMeaningfulActions := by
  intro s a rest hs
  rw [step_cons hs]
  refine ⟨hostAct_completes (s := { s with script := rest }), ?_, ?_, ?_, ?_, ?_, ?_, ?_, ?_⟩
  · rintro n rfl h; exact hostAct_readReg_of_none (readReg_of_ge h _)
  · rintro n v rfl h; exact writeReg_of_ge h v _
  · rintro k rfl h; exact if_neg h.not_gt
  · rintro k v rfl h; exact if_neg h.not_gt
  · rintro k rfl h; exact if_neg h.not_gt
  · rintro k v rfl h; exact if_neg h.not_gt
  · rintro x y rfl h; exact if_neg (by dsimp only; omega)
  · rintro x y q rfl h; exact if_neg (by dsimp only; omega)

/-- Settles O4: a write to register 0 is `writeCmd`, which runs the word's command. -/
theorem stepRunsTheDecodedCommand : Obligations.StepRunsTheDecodedCommand := by
  intro s w rest hs
  rw [step_cons hs, hostAct_writeReg, writeReg_cmd]
  exact ⟨rfl, fun _ hi => writeCmd_of_ok hi _⟩

/-- Settles O48, by the rows of `readReg_of_lt`; a read adds its reply and nothing else. -/
theorem hostReadsRegisters : Obligations.HostReadsRegisters := by
  intro s n rest hs hn
  obtain ⟨v, hv, hval⟩ := readReg_of_lt hn { s with script := rest }
  exact ⟨v, by rw [step_cons hs, hostAct_readReg_of_some hv]; rfl, hval⟩

/-- The low four bits of a register write, as a number (R23, R24). -/
theorem low_bits_eq_ofNat (v : Word) : v.extractLsb' 0 4 = BitVec.ofNat 4 (v.toNat % 16) := by
  apply BitVec.eq_of_toNat_eq
  simp

/-- Settles O49: each number names one arm of the register write. -/
theorem hostWritesRegisters : Obligations.HostWritesRegisters := by
  intro s n v rest hs
  rw [step_cons hs, hostAct_writeReg, ← low_bits_eq_ofNat]
  refine ⟨?_, ?_, ?_, ?_, ?_, ?_, ?_, ?_, ?_, ?_, ?_⟩
  · intro hn
    simp only [List.mem_cons, List.not_mem_nil, or_false] at hn
    rcases hn with rfl | rfl | rfl | rfl | rfl <;> rfl
  all_goals rintro rfl; rfl

/-! ## The composite bodies, field by field -/

@[simp] theorem encBody_cell (s : State) : (encBody s).cell = s.cell := by rw [encBody_frame]
@[simp] theorem encBody_lw (s : State) : (encBody s).lw = s.lw := by rw [encBody_frame]
@[simp] theorem encBody_hlen (s : State) : (encBody s).hlen = reg (2 * s.blen.toNat) := by rw [encBody_frame]
@[simp] theorem encBody_cols (s : State) : (encBody s).cols = reg (max 1 (reg (2 * s.blen.toNat)).toNat) := by
  rw [encBody_frame]
@[simp] theorem encBody_rows (s : State) : (encBody s).rows = reg 1 := by rw [encBody_frame]
@[simp] theorem encBody_status (s : State) :
    (encBody s).status = { s.status with empty := emptyFlag (encBody s).hlen.toNat } := by rw [encBody_frame]
@[simp] theorem decBody_cell (s : State) : (decBody s).cell = s.cell := by rw [decBody_frame]
@[simp] theorem decBody_lw (s : State) : (decBody s).lw = s.lw := by rw [decBody_frame]
@[simp] theorem decBody_cols (s : State) : (decBody s).cols = reg s.gridCols := by rw [decBody_frame]
@[simp] theorem decBody_rows (s : State) : (decBody s).rows = reg s.gridRows := by rw [decBody_frame]
@[simp] theorem decBody_status (s : State) :
    (decBody s).status = { s.status with odd := oddFlag (decBody s).hlen.toNat } := by rw [decBody_frame]

/-! ## The invariant, part by part: what a body keeps when its check has passed -/

theorem wf_bodyOf (i : Instr) {s : State} (h : s.mem.wf) : (bodyOf i s).mem.wf := by
  cases i with
  | nop | d2b | b2d | grid | clr | srst => exact h
  | b2h => exact wf_b2hBody h
  | h2b => exact wf_h2bBody h
  | layout => exact wf_layoutBody h
  | drawc => exact wf_drawcBody h
  | probec => exact wf_probecBody h
  | enc =>
    exact repeatBody_induction (P := fun _ t => t.mem.wf) drawcBody _ _ (wf_layoutBody (wf_b2hBody h))
      fun _ _ _ => wf_drawcBody
  | dec =>
    exact wf_h2bBody <| repeatBody_induction (P := fun _ t => t.mem.wf) probecBody _ (gridBody s) h
      fun _ _ _ => wf_probecBody

/-- A stored result is at most what was computed. -/
theorem toNat_reg_le (n : Nat) : (reg n).toNat ≤ n := by
  rw [reg, BitVec.toNat_ofNat]; exact Nat.mod_le _ _

theorem toNat_reg_mul_le {a b n : Nat} (h : a * b ≤ n) : (reg a).toNat * (reg b).toNat ≤ n :=
  (Nat.mul_le_mul (toNat_reg_le a) (toNat_reg_le b)).trans h

/-- DRAWC's body paints inside the image: any number of them stays in an image that fits PB. -/
theorem within_drawc_rounds (n : Nat) {s : State} {c : Config} (h : s.mem.within c) (hw : s.imw.toNat ≤ c.maxW)
    (hh : s.imh.toNat ≤ c.maxH) : (repeatBody drawcBody n s).mem.within c :=
  (repeatBody_induction (P := fun _ t => t.mem.within c ∧ t.imw = s.imw ∧ t.imh = s.imh) drawcBody n s ⟨h, rfl, rfl⟩
    fun _ _ _ ⟨ht, hw', hh'⟩ => ⟨within_drawcBody ht (hw' ▸ hw) (hh' ▸ hh), hw', hh'⟩).1

/-- The round of a scan that starts with an empty HB writes the digit of the round's own number: `n` rounds stay
within `n` digits. -/
theorem within_probec_rounds (n : Nat) {s : State} {c : Config} (h : s.mem.within c) (h0 : s.hlen = 0#32)
    (hn : n ≤ c.maxDigits) (hc : c.maxDigits < 2 ^ 32) :
    (repeatBody probecBody n s).mem.within c ∧ (repeatBody probecBody n s).hlen.toNat = n :=
  repeatBody_induction (P := fun k t => t.mem.within c ∧ t.hlen.toNat = k) probecBody n s ⟨h, by rw [h0]; rfl⟩
    fun k t hk ⟨ht, hl⟩ => ⟨within_probecBody ht (by omega), by
      rw [probecBody_hlen, hl, toNat_reg (by omega)]⟩

theorem within_encBody {s : State} {c : Config} (hc : c.Legal) (h : s.mem.within c) (hb : s.blen.toNat ≤ c.maxBytes)
    (hw : max 1 (2 * s.blen.toNat) * s.cell.toNat ≤ c.maxW) (hh : s.cell.toNat ≤ c.maxH) :
    (encBody s).mem.within c := by
  obtain ⟨-, -, hd, -⟩ := hc
  have hb' : 2 * s.blen.toNat ≤ c.maxDigits := by unfold Config.maxBytes at hb; omega
  have hl : (b2hBody s).hlen.toNat = 2 * s.blen.toNat := toNat_reg (by omega)
  have hw' : max 1 (b2hBody s).hlen.toNat * (b2hBody s).cell.toNat ≤ c.maxW := by rw [hl]; exact hw
  exact within_drawc_rounds _ (within_layoutBody (within_b2hBody h hb') hw' hh)
    ((toNat_reg_le _).trans hw') ((toNat_reg_le _).trans hh)

theorem within_decBody {s : State} {c : Config} (hc : c.Legal) (h : s.mem.within c)
    (hg : s.gridCols * s.gridRows ≤ c.maxDigits) : (decBody s).mem.within c := by
  obtain ⟨-, -, hd, -⟩ := hc
  obtain ⟨ht, hl⟩ := within_probec_rounds (s := gridBody s) _ h rfl hg hd
  exact within_h2bBody ht (by rw [hl]; exact Nat.div_le_div_right hg)

/-- With its check passed, no command lists an element the block does not have (R37). -/
theorem within_bodyOf {i : Instr} {s : State} (hl : s.config.Legal) (h : s.mem.within s.config) (hc : Clean i s) :
    (bodyOf i s).mem.within s.config := by
  obtain ⟨-, hcap, -⟩ := hc
  cases i <;> simp only [CapWhen, not_or, not_lt, not_le] at hcap
  case nop | d2b | b2d | grid | clr | srst => exact h
  case b2h => exact within_b2hBody h (by unfold Config.maxBytes at hcap; omega)
  case h2b => exact within_h2bBody h (Nat.div_le_div_right hcap)
  case layout =>
    obtain ⟨-, hw, hh⟩ := hcap
    exact within_layoutBody h hw hh
  case drawc =>
    obtain ⟨-, hw, hh⟩ := hcap
    exact within_drawcBody h hw hh
  case enc =>
    obtain ⟨hb, hw, hh⟩ := hcap
    exact within_encBody hl h hb hw hh
  case probec =>
    obtain ⟨-, -, hd⟩ := hcap
    exact within_probecBody h hd
  case dec =>
    obtain ⟨-, -, hgrid⟩ := hcap
    exact within_decBody hl h hgrid

/-- The grid a command leaves fits HB: the old one, LAYOUT's single row, or GRID's checked product. -/
theorem grid_fits_bodyOf {i : Instr} {s : State} (hl : s.config.Legal)
    (hg : s.cols.toNat * s.rows.toNat ≤ s.config.maxDigits) (hc : Clean i s) :
    (bodyOf i s).cols.toNat * (bodyOf i s).rows.toNat ≤ s.config.maxDigits := by
  obtain ⟨-, h2, -⟩ := hl
  obtain ⟨-, hcap, -⟩ := hc
  cases i <;> simp only [CapWhen, not_or, not_lt, not_le] at hcap
  case nop | d2b | b2d | b2h | h2b | drawc | clr => exact hg
  case probec => rw [bodyOf, probecBody_cols, probecBody_rows]; exact hg
  case srst => exact Nat.zero_le _
  case layout => exact toNat_reg_mul_le (by omega)
  case enc =>
    have hh := toNat_reg_le (2 * s.blen.toNat)
    have hb : s.blen.toNat ≤ s.config.maxDigits / 2 := hcap.1
    rw [bodyOf, encBody_cols, encBody_rows]
    exact toNat_reg_mul_le (by omega)
  case grid =>
    obtain ⟨-, -, hgrid⟩ := hcap
    exact toNat_reg_mul_le hgrid
  case dec =>
    obtain ⟨-, -, hgrid⟩ := hcap
    rw [bodyOf, decBody_cols, decBody_rows]
    exact toNat_reg_mul_le hgrid

theorem latchOk_bodyOf (i : Instr) {s : State} (h : s.LatchOk) : (bodyOf i s).LatchOk := by
  unfold State.LatchOk
  rw [bodyOf_err, bodyOf_errcode]
  split
  · simp
  · exact h

/-- The codes of the four errors a step raises are 1 to 4 (R111, R122). -/
theorem latchOk_raise {e : Error} (he : e ≠ .hexConv) (s : State) : (s.raise e).LatchOk := by
  cases e <;> simp_all [State.LatchOk, Error.code]

/-! ## The invariant, action by action -/

theorem inv_raise {e : Error} (he : e ≠ .hexConv) {s : State} (h : s.Inv) : (s.raise e).Inv := by
  obtain ⟨hl, hwf, hin, -, hg⟩ := h
  exact ⟨hl, hwf, hin, latchOk_raise he s, hg⟩

theorem inv_bodyOf {i : Instr} {s : State} (h : s.Inv) (hc : Clean i s) : (bodyOf i s).Inv := by
  obtain ⟨hl, hwf, hin, hla, hg⟩ := h
  refine ⟨?_, wf_bodyOf i hwf, ?_, latchOk_bodyOf i hla, ?_⟩ <;> rw [bodyOf_config]
  · exact hl
  · exact within_bodyOf hl hin hc
  · exact grid_fits_bodyOf hl hg hc

theorem inv_exec {i : Instr} {s t : State} (h : s.Inv) (he : exec i s = .next t) : t.Inv := by
  rcases exec_cases he with ⟨-, -, -, rfl⟩ | ⟨-, -, -, e, hk, rfl⟩ | ⟨-, hk, rfl⟩
  · exact h
  · exact inv_raise (by rcases checkOf_error hk with rfl | rfl | rfl <;> decide) h
  · exact inv_bodyOf h ((checkOf_eq_none_iff i s).1 hk)

theorem inv_writeCmd {w : Word} {s t : State} (h : s.Inv) (he : s.writeCmd w = .next t) : t.Inv := by
  rcases writeCmd_cases he with ⟨i, -, hi⟩ | ⟨-, -, rfl⟩ | ⟨-, -, rfl⟩
  · exact inv_exec h hi
  · exact h
  · exact inv_raise (by decide) h

theorem inv_writeReg {n : Nat} {v : Word} {s t : State} (h : s.Inv) (ht : s.writeReg n v = .next t) : t.Inv := by
  rcases writeReg_cases ht with ⟨-, hw⟩ | hw
  · exact inv_writeCmd h hw
  · rw [hw]; exact h

theorem inv_hostAct {a : HostAction} {s t : State} (h : s.Inv) (ht : hostAct a s = .next t) : t.Inv := by
  obtain ⟨hl, hwf, hin, hla, hg⟩ := id h
  rcases hostAct_cases ht with ⟨r, rfl⟩ | ⟨n, v, -, hw⟩ | ⟨k, v, hk, rfl⟩ | ⟨k, v, hk, rfl⟩ | ⟨x, y, p, hx, hy, rfl⟩
  · exact h
  · exact inv_writeReg h hw
  · exact ⟨hl, wf_setByte hwf k v, within_setByte hin v hk, hla, hg⟩
  · exact ⟨hl, wf_setDigit hwf k v, within_setDigit hin v hk, hla, hg⟩
  · exact ⟨hl, wf_setPixel hwf x y p, within_setPixel hin p hx hy, hla, hg⟩

/-- Settles O54: an idle step changes nothing, and taking an action from the script touches nothing the invariant
speaks of, so the action alone decides. -/
theorem stepKeepsTheInvariant : Obligations.StepKeepsTheInvariant := by
  intro s t h ht
  cases hs : s.script with
  | nil =>
    rw [step_nil hs] at ht
    cases ht
    exact h
  | cons a rest =>
    rw [step_cons hs] at ht
    exact inv_hostAct (s := { s with script := rest }) h ht

/-- Settles O53: the reset registers meet the invariant with any canonical buffers, and the empty ones are canonical. -/
theorem invariantHoldsAfterReset : Obligations.InvariantHoldsAfterReset := by
  have resetWith_inv : ∀ (c : Config) (m : Memory), c.Legal → m.wf → m.within c → (State.resetWith c m).Inv :=
    fun c m hc hm hin => ⟨hc, hm, hin, ⟨fun _ => rfl, nofun⟩, Nat.zero_le _⟩
  exact ⟨resetWith_inv, resetWith_inv _ _ (by decide) wf_empty (within_empty _)⟩

/-! ## Configuration and flags -/

theorem bodyOf_cell {i : Instr} (h : i ≠ .srst) (s : State) : (bodyOf i s).cell = s.cell := by
  cases i <;> simp_all [bodyOf, nopBody]

theorem bodyOf_lw {i : Instr} (h : i ≠ .srst) (s : State) : (bodyOf i s).lw = s.lw := by
  cases i <;> simp_all [bodyOf, nopBody]

/-- Settles O55: a refusal and a latch write none of the three, and no body but SRST's does. -/
theorem commandsLeaveTheConfigurationAlone : Obligations.CommandsLeaveTheConfigurationAlone := by
  intro i s t ht
  rcases exec_cases ht with ⟨-, -, -, rfl⟩ | ⟨-, -, -, e, -, rfl⟩ | ⟨-, -, rfl⟩
  · exact ⟨rfl, fun _ => ⟨rfl, rfl⟩⟩
  · exact ⟨rfl, fun _ => ⟨rfl, rfl⟩⟩
  · exact ⟨bodyOf_config i s, fun h => ⟨bodyOf_cell h s, bodyOf_lw h s⟩⟩

/-- The list of R27: H2B and DEC write ODD by the HLEN they leave, LAYOUT and ENC write EMPTY by the HLEN they leave,
CLR and SRST clear STATUS, and every other body leaves it. -/
theorem bodyOf_status (i : Instr) (s : State) : (bodyOf i s).status =
    if i = .clr ∨ i = .srst then ⟨false, false, false⟩
    else if i = .h2b ∨ i = .dec then { s.status with odd := oddFlag (bodyOf i s).hlen.toNat }
    else if i = .layout ∨ i = .enc then { s.status with empty := emptyFlag (bodyOf i s).hlen.toNat }
    else s.status := by
  cases i with
  | enc => exact encBody_status s
  | dec => exact decBody_status s
  | probec => exact probecBody_status s
  | _ => rfl

theorem oddFlag_iff (m : Nat) : oddFlag m = true ↔ m % 2 = 1 := by simp [oddFlag]

theorem emptyFlag_iff (m : Nat) : emptyFlag m = true ↔ m = 0 := by simp [emptyFlag]

/-- Settles O56: a refusal writes no flag, a latch writes ERR and only on a failed check, and a body writes what
`bodyOf_status` lists. -/
theorem flagWritesAreTheListedOnes : Obligations.FlagWritesAreTheListedOnes := by
  intro i s t ht
  rcases exec_cases ht with ⟨hc, hs, he, rfl⟩ | ⟨hc, hs, he, e, hk, rfl⟩ | ⟨-, -, rfl⟩
  · simp [hc, hs, he]
  · have hdirty : ¬Clean i s := fun h => by simp [(checkOf_eq_none_iff i s).2 h] at hk
    simp [hc, hs, he, hdirty]
  · rw [bodyOf_status]
    cases i <;> simp [oddFlag_iff, emptyFlag_iff]

/-! ## The diagnostics -/

/-- The state with the values `o` and `e` in ODD and EMPTY. -/
def State.withDiagnostics (o e : Bool) (s : State) : State := { s with status := ⟨s.status.err, o, e⟩ }

/-- A check reads ERR at most, of the flags. -/
theorem checkOf_withDiagnostics (i : Instr) (o e : Bool) (s : State) :
    checkOf i (s.withDiagnostics o e) = checkOf i s := by
  cases i <;> rfl

theorem advance_withDiagnostics (o e : Bool) (s : State) :
    (s.withDiagnostics o e).advance = s.advance.withDiagnostics o e := by
  unfold State.advance
  rw [apply_ite (State.withDiagnostics o e)]
  rfl

theorem probecBody_withDiagnostics (o e : Bool) (s : State) :
    probecBody (s.withDiagnostics o e) = (probecBody s).withDiagnostics o e := by
  unfold probecBody
  rw [← advance_withDiagnostics]
  rfl

/-- A loop whose round does not read the diagnostics does not read them. -/
theorem repeatBody_withDiagnostics {f : State → State} {o e : Bool}
    (hf : ∀ s, f (s.withDiagnostics o e) = (f s).withDiagnostics o e) (n : Nat) (s : State) :
    repeatBody f n (s.withDiagnostics o e) = (repeatBody f n s).withDiagnostics o e := by
  induction n generalizing s with
  | zero => rfl
  | succ n ih => exact (congrArg (repeatBody f n) (hf s)).trans (ih (f s))

theorem encBody_withDiagnostics (o e : Bool) (s : State) :
    encBody (s.withDiagnostics o e) = (encBody s).withDiagnostics o (encBody s).status.empty := by
  rw [encBody_status, encBody_hlen]
  exact repeatBody_withDiagnostics (f := drawcBody) (fun _ => rfl) _ (layoutBody (b2hBody s))

theorem decBody_withDiagnostics (o e : Bool) (s : State) :
    decBody (s.withDiagnostics o e) = (decBody s).withDiagnostics (decBody s).status.odd e :=
  congrArg h2bBody (repeatBody_withDiagnostics (probecBody_withDiagnostics o e) _ (gridBody s))

/-- A body reads neither diagnostic: from other values in the two it leaves the same state but for the two. -/
theorem bodyOf_withDiagnostics (i : Instr) (o e : Bool) (s : State) :
    ∃ o' e', bodyOf i (s.withDiagnostics o e) = (bodyOf i s).withDiagnostics o' e' := by
  cases i with
  | nop | d2b | b2d | b2h | drawc | grid => exact ⟨o, e, rfl⟩
  | h2b => exact ⟨oddFlag s.hlen.toNat, e, rfl⟩
  | layout => exact ⟨o, emptyFlag s.hlen.toNat, rfl⟩
  | probec => exact ⟨o, e, probecBody_withDiagnostics o e s⟩
  | enc => exact ⟨_, _, encBody_withDiagnostics o e s⟩
  | dec => exact ⟨_, _, decBody_withDiagnostics o e s⟩
  | clr | srst => exact ⟨false, false, rfl⟩

/-- A command reads neither diagnostic. -/
theorem exec_withDiagnostics {i : Instr} {s t : State} (ht : exec i s = .next t) (o e : Bool) :
    ∃ o' e', exec i (s.withDiagnostics o e) = .next (t.withDiagnostics o' e') := by
  have hk := checkOf_withDiagnostics i o e s
  obtain ⟨o', e', hb⟩ := bodyOf_withDiagnostics i o e s
  rcases exec_cases ht with ⟨hc, hs, he, rfl⟩ | ⟨-, -, he, r, hr, rfl⟩ | ⟨hi, hr, rfl⟩
  · exact ⟨o, e, by rw [exec_eq_command hc hs]; exact command_of_err he⟩
  · exact ⟨o, e, exec_of_raise he (hk.trans hr)⟩
  · refine ⟨o', e', ?_⟩
    rcases hi with rfl | rfl | he
    · rw [exec_clr]; exact congrArg _ hb
    · rw [exec_srst]; exact congrArg _ hb
    · rw [← hb]; exact exec_of_clean he (hk.trans hr)

/-- Settles O57: the state with other diagnostics runs the same check and the same body. -/
theorem diagnosticsAreNeverRead : Obligations.DiagnosticsAreNeverRead := by
  intro i s t o e ht
  obtain ⟨o', e', h⟩ := exec_withDiagnostics ht o e
  exact ⟨_, h, rfl⟩

end Sys2Proof.Machine

/-! # Proofs: the three buffers, a command's word, and every command's end (20_memory.md) -/

namespace Sys2Proof.Machine

/-! ## Which buffer a command writes -/

@[simp] theorem encBody_bb (s : State) : (encBody s).mem.bb = s.mem.bb := by rw [encBody_frame]
@[simp] theorem decBody_pb (s : State) : (decBody s).mem.pb = s.mem.pb := by rw [decBody_frame]

/-- Of the bodies, H2B's and DEC's alone write BB (R30). -/
theorem bodyOf_bb {i : Instr} (h : ¬(i = .h2b ∨ i = .dec)) (s : State) : (bodyOf i s).mem.bb = s.mem.bb := by
  cases i with
  | h2b | dec => simp at h
  | enc => exact encBody_bb s
  | probec => rw [bodyOf, probecBody_mem, setDigit_bb]
  | _ => rfl

/-- Of the bodies, those of B2H, PROBEC, ENC and DEC alone write HB (R30). -/
theorem bodyOf_hb {i : Instr} (h : ¬(i = .b2h ∨ i = .probec ∨ i = .enc ∨ i = .dec)) (s : State) :
    (bodyOf i s).mem.hb = s.mem.hb := by
  cases i with
  | b2h | probec | enc | dec => simp at h
  | _ => rfl

/-- Of the bodies, those of LAYOUT, DRAWC and ENC alone write PB (R30); no decoding command does (R42). -/
theorem bodyOf_pb {i : Instr} (h : ¬(i = .layout ∨ i = .drawc ∨ i = .enc)) (s : State) :
    (bodyOf i s).mem.pb = s.mem.pb := by
  cases i with
  | layout | drawc | enc => simp at h
  | probec => rw [bodyOf, probecBody_mem, setDigit_pb]
  | dec => exact decBody_pb s
  | _ => rfl

/-- A refused or a raising command leaves the buffers as they were; one that completes leaves its body's. -/
theorem exec_mem_cases {i : Instr} {s t : State} (h : exec i s = .next t) :
    t.mem = s.mem ∨ t.mem = (bodyOf i s).mem := by
  rcases exec_cases h with ⟨-, -, -, rfl⟩ | ⟨-, -, -, e, -, rfl⟩ | ⟨-, -, rfl⟩
  · exact .inl rfl
  · exact .inl rfl
  · exact .inr rfl

/-- Settles O58: where the buffers are not the old ones they are the body's, and each body keeps the buffers it is not
listed for. -/
theorem buffersAreWrittenOnlyByTheirCommands : Obligations.BuffersAreWrittenOnlyByTheirCommands := by
  intro i s t ht
  rcases exec_mem_cases ht with hm | hm <;> rw [hm]
  · exact ⟨absurd rfl, absurd rfl, absurd rfl⟩
  · exact ⟨Not.imp_symm fun hi => bodyOf_bb hi s, Not.imp_symm fun hi => bodyOf_hb hi s,
      Not.imp_symm fun hi => bodyOf_pb hi s⟩

/-! ## A placed word, and every command's end -/

/-- All 32 bits of a word given as a number come through. -/
theorem tableWord_toNat (w : Word) : tableWord 32 w.toNat = w := by
  rw [tableWord, Nat.mod_eq_of_lt w.isLt, BitVec.ofNat_toNat, BitVec.setWidth_eq]

theorem decodeTableWord_of_ok {nbits w : Nat} {i : Instr} (h : decode (tableWord nbits w) = .ok i) :
    decodeTableWord nbits w = some i := by
  rw [decodeTableWord, h]

/-- The step after placing a word is the host's write of that word to CMD, with the script as it was. -/
theorem step_withFetchWord (s : State) (nbits w : Nat) :
    step (s.withFetchWord nbits w) = s.writeCmd (tableWord nbits w) := rfl

/-- Settles O5: the placed word is `w` itself, and its write to CMD runs the command it decodes to. -/
theorem placedWordIsTheNextCommand : Obligations.PlacedWordIsTheNextCommand := by
  intro s w i hw
  rw [← tableWord_toNat w] at hw
  exact ⟨(step_withFetchWord s 32 w.toNat).trans (writeCmd_of_ok hw s), decodeTableWord_of_ok hw⟩

/-- Settles O13: `exec_completes`. -/
theorem everyCommandCompletesInEveryState : Obligations.EveryCommandCompletesInEveryState :=
  exec_completes

/-! ## The host's buffer accesses -/

/-- Settles O50: an index the block has passes the access's guard; a read then adds its reply, and a write's effect on
the elements is that of `setByte`, `setDigit` or `setPixel`, whose other buffers stay. -/
theorem hostAccessesBuffers : Obligations.HostAccessesBuffers := by
  intro s a rest hs hw
  rw [step_cons hs]
  refine ⟨?_, ?_, ?_, ?_, ?_, ?_⟩
  · rintro k rfl; exact if_pos hw
  · rintro k rfl; exact if_pos hw
  · rintro x y rfl; exact if_pos hw
  · rintro k v rfl; exact ⟨_, if_pos hw, fun j => byteAt_setByte s.mem k j v, rfl⟩
  · rintro k v rfl; exact ⟨_, if_pos hw, fun j => digitAt_setDigit s.mem k j v, rfl⟩
  · rintro x y p rfl; exact ⟨_, if_pos hw, fun x' y' => pixelAt_setPixel s.mem x y x' y' p, rfl⟩

end Sys2Proof.Machine

/-! # Proofs: the command word and the glyph code (30_encoding.md) -/

namespace Sys2Proof.Machine

/-! ## The two fields of a word (R45) -/

theorem toNat_opField (w : Word) : (opField w).toNat = w.toNat % 16 := by
  rw [opField, BitVec.extractLsb'_toNat, Nat.shiftRight_zero]

theorem toNat_zeroField (w : Word) : (zeroField w).toNat = w.toNat / 16 := by
  rw [zeroField, BitVec.extractLsb'_toNat, Nat.shiftRight_eq_div_pow]
  exact Nat.mod_eq_of_lt (by omega)

theorem zeroField_eq_zero_iff (w : Word) : zeroField w = 0#28 ↔ w.toNat < 16 := by
  have hf := toNat_zeroField w
  rw [BitVec.toNat_eq, BitVec.toNat_ofNat]
  omega

/-- A word is its two fields. -/
theorem word_eq_iff_fields (w v : Word) : w = v ↔ zeroField w = zeroField v ∧ opField w = opField v := by
  simp only [BitVec.toNat_eq, toNat_zeroField, toNat_opField]
  omega

theorem wellFormedWord_iff_fields (w : Word) : WellFormedWord w ↔ zeroField w = 0#28 ∧ (opField w).toNat < 13 :=
  Iff.rfl

theorem wellFormedWord_iff_toNat_le (w : Word) : WellFormedWord w ↔ w.toNat ≤ 12 := by
  rw [wellFormedWord_iff_fields, zeroField_eq_zero_iff, toNat_opField]
  omega

/-! ## The encoder: the model's round trip, for any command -/

theorem roundTrip (i : Instr) : Laws.RoundTrip.Statement i := by
  open Laws.RoundTrip in
  cases i
  exacts [nop, d2b, b2d, b2h, h2b, layout, drawc, enc, grid, probec, dec, clr, srst]

theorem decode_encode (i : Instr) : decode (encode i) = .ok i := by
  obtain ⟨-, -, hdec⟩ := roundTrip i
  exact hdec

theorem wellFormedWord_encode (i : Instr) : WellFormedWord (encode i) := by
  obtain ⟨-, hword, -⟩ := roundTrip i
  exact hword

theorem zeroField_encode (i : Instr) : zeroField (encode i) = 0#28 := by
  obtain ⟨hz, -⟩ := (wellFormedWord_iff_fields _).1 (wellFormedWord_encode i)
  exact hz

/-! ## The decoder -/

/-- A code names the command whose word carries it (R47). -/
theorem commandOfCode_eq_some_iff (op : BitVec 4) (i : Instr) :
    commandOfCode op = some i ↔ op = opField (encode i) := by
  cases i <;> revert op <;> decide

/-- The codes 0xD, 0xE and 0xF are the reserved ones (R47). -/
theorem commandOfCode_eq_none_iff (op : BitVec 4) : commandOfCode op = none ↔ 13 ≤ op.toNat := by
  revert op; decide

theorem decode_of_high_bits {w : Word} (h : zeroField w ≠ 0#28) : decode w = .error .highBitsSet := if_pos h

theorem decode_of_reserved {w : Word} (hz : zeroField w = 0#28) (hr : 13 ≤ (opField w).toNat) :
    decode w = .error (.reservedCode (opField w)) := by
  rw [decode, if_neg (not_not_intro hz), (commandOfCode_eq_none_iff _).2 hr]

/-- Everything the decoder can answer (R48): the two errors, or the command whose word it read. -/
theorem decode_cases (w : Word) :
    (zeroField w ≠ 0#28 ∧ decode w = .error .highBitsSet) ∨
      (zeroField w = 0#28 ∧ 13 ≤ (opField w).toNat ∧ decode w = .error (.reservedCode (opField w))) ∨
      ∃ i, w = encode i := by
  by_cases hz : zeroField w = 0#28
  · cases hc : commandOfCode (opField w) with
    | none =>
      have hr := (commandOfCode_eq_none_iff _).1 hc
      exact .inr (.inl ⟨hz, hr, decode_of_reserved hz hr⟩)
    | some i =>
      have hop := (commandOfCode_eq_some_iff _ i).1 hc
      exact .inr (.inr ⟨i, (word_eq_iff_fields _ _).2 ⟨hz.trans (zeroField_encode i).symm, hop⟩⟩)
  · exact .inl ⟨hz, decode_of_high_bits hz⟩

theorem decode_eq_ok_iff (w : Word) (i : Instr) : decode w = .ok i ↔ w = encode i := by
  refine ⟨fun h => ?_, fun h => h ▸ decode_encode i⟩
  rcases decode_cases w with ⟨-, he⟩ | ⟨-, -, he⟩ | ⟨j, rfl⟩
  · cases he.symm.trans h
  · cases he.symm.trans h
  · cases (decode_encode j).symm.trans h
    rfl

theorem decode_eq_error_iff (w : Word) : (∃ e, decode w = .error e) ↔ ¬WellFormedWord w := by
  rw [wellFormedWord_iff_fields]
  rcases decode_cases w with ⟨hz, he⟩ | ⟨-, hr, he⟩ | ⟨i, rfl⟩
  · exact ⟨fun _ h => hz h.1, fun _ => ⟨_, he⟩⟩
  · exact ⟨fun _ h => hr.not_gt h.2, fun _ => ⟨_, he⟩⟩
  · refine ⟨fun ⟨e, he⟩ => ?_, fun h => absurd (wellFormedWord_encode i) h⟩
    cases (decode_encode i).symm.trans he

/-- Settles O2: the decoder answers a command on that command's word alone and an error on the ill-formed words, and
well-formedness of the two fields bounds the whole word. -/
theorem decoderAcceptsExactlyTheThirteenWords : Obligations.DecoderAcceptsExactlyTheThirteenWords :=
  ⟨decode_eq_ok_iff, decode_eq_error_iff, wellFormedWord_iff_toNat_le⟩

/-- Settles O1: `decode_encode`. -/
theorem encodedCommandDecodes : Obligations.EncodedCommandDecodes := fun i _ => decode_encode i

/-- Settles O3: each of the six words is its command's encoding; of the others one has the reserved code 0xD and two
have a high bit set. -/
theorem tableWordsDecode : Obligations.TableWordsDecode := by
  refine ⟨decode_encode .nop, decode_encode .b2d, decode_encode .b2h, decode_encode .enc, decode_encode .dec,
    decode_encode .srst, ?reserved, ?bit4, ?bit31⟩
  case reserved => exact decode_of_reserved (by decide) (by decide)
  case bit4 => exact decode_of_high_bits (by decide)
  case bit31 => exact decode_of_high_bits (by decide)

/-! ## The glyph code (R46, R50) -/

/-- The weighted sum of R50 is the digit itself: four flags sum to at most 15, so nothing is cut. -/
theorem toNat_bitsToDigit (q : Quad) : (bitsToDigit q).toNat =
    8 * q.backslash.toNat + 4 * q.slash.toNat + 2 * q.vertical.toNat + q.horizontal.toNat := by
  have h3 := q.backslash.toNat_le
  have h2 := q.slash.toNat_le
  have h1 := q.vertical.toNat_le
  have h0 := q.horizontal.toNat_le
  rw [bitsToDigit, BitVec.toNat_ofNat]
  exact Nat.mod_eq_of_lt (by omega)

/-- QUAD gives back the quadruple it was given (R24): it holds the digit's bits in their own order. -/
@[simp] theorem regQuad_quadReg (q : Quad) : regQuad (quadReg q) = q := by
  rw [← bitsToDigit_eq_quadReg]
  exact digitToBits_bitsToDigit q

/-- Settles O22: the table is evaluated row by row, and the three laws are the codec's lemmas. -/
theorem glyphCodeIsTheTable : Obligations.GlyphCodeIsTheTable := by
  refine ⟨?table, toNat_bitsToDigit, ?quad, quadReg_digitToBits⟩
  case table => decide
  case quad => exact fun q => ⟨(bitsToDigit_eq_quadReg q).symm, regQuad_quadReg q⟩

end Sys2Proof.Machine

/-! # Proofs: the cell codec and its two commands (40_cell_codec.md) -/

namespace Sys2Proof.Machine

/-! ## The two functions (R64) -/

@[simp] theorem bitsToDigit_digitToBits (d : Digit) : bitsToDigit (digitToBits d) = d := by
  rw [bitsToDigit_eq_quadReg, quadReg_digitToBits]

/-- QUAD's bit assignment is the digit's own (R24, R60): its flags are those of the digit of the same bits. -/
theorem regQuad_eq_digitToBits (q : BitVec 4) : regQuad q = digitToBits q := rfl

@[simp] theorem bitsToDigit_regQuad (q : BitVec 4) : bitsToDigit (regQuad q) = q := by
  rw [regQuad_eq_digitToBits, bitsToDigit_digitToBits]

/-- Settles O21: each part is a law of the codec. -/
theorem cellCodecIsABijection : Obligations.CellCodecIsABijection :=
  ⟨bitsToDigit_digitToBits, digitToBits_bitsToDigit, fun d => ⟨quadReg_digitToBits d, bitsToDigit_regQuad d⟩⟩

/-! ## The two commands (R62, R63) -/

/-- D2B has no check of its own (R62), so with no error latched it runs its body. -/
theorem exec_d2b {s : State} (he : s.status.err = false) : exec .d2b s = .next (d2bBody s) :=
  exec_of_clean he rfl

/-- B2D has no check of its own (R63), so with no error latched it runs its body. -/
theorem exec_b2d {s : State} (he : s.status.err = false) : exec .b2d s = .next (b2dBody s) :=
  exec_of_clean he rfl

/-- Settles O19: the flags of DIG, held as QUAD holds them, are DIG itself. -/
theorem digitToBitsWritesQuad : Obligations.DigitToBitsWritesQuad := by
  intro s he
  rw [exec_d2b he, d2bBody, quadReg_digitToBits, BitVec.ofNat_toNat, BitVec.setWidth_eq]

/-- Settles O20: the body writes the weighted sum of QUAD's flags, which `regQuad` reads from its bits. -/
theorem bitsToDigitWritesDig : Obligations.BitsToDigitWritesDig := by
  intro s he
  rw [exec_b2d he, b2dBody, bitsToDigit, regQuad]

end Sys2Proof.Machine

/-! # Proofs: bytes and digits, and the loops behind the bulk operations (41_hex_glue.md) -/

namespace Sys2Proof.Machine

/-! ## The functions `expand` and `pair` (R65, R66, R69) -/

theorem expand_append (bs cs : List Byte) : expand (bs ++ cs) = expand bs ++ expand cs := by
  induction bs with
  | nil => rfl
  | cons b bs ih => simp [expand, ih]

/-- An even number of digits pairs up by itself, whatever follows. -/
theorem pair_append {hs : List Digit} (h : hs.length % 2 = 0) (gs : List Digit) :
    pair (hs ++ gs) = pair hs ++ pair gs := by
  induction hs using pair_induction with
  | h0 => rfl
  | h1 d => simp at h
  | h2 d1 d2 hs ih =>
    have heven : hs.length % 2 = 0 := by simp only [List.length_cons] at h; omega
    simp [pair, ih heven]

@[simp] theorem pair_expand (bs : List Byte) : pair (expand bs) = bs := by
  induction bs with
  | nil => rfl
  | cons b bs ih => simp [expand, pair, ih]

/-- Pairing keeps the digits up to the last even count. -/
theorem expand_pair (hs : List Digit) : expand (pair hs) = hs.take (2 * (hs.length / 2)) := by
  induction hs using pair_induction with
  | h0 => rfl
  | h1 d => simp [pair, expand]
  | h2 d1 d2 hs ih =>
    have hlen : 2 * ((hs.length + 1 + 1) / 2) = 2 * (hs.length / 2) + 2 := by omega
    simp [pair, expand, ih, hlen]

/-- Settles O24: the even count is the whole length, or all but the last digit. -/
theorem pairAndExpandLaws : Obligations.PairAndExpandLaws := by
  refine ⟨pair_expand, fun hs heven => ?even, fun hs hodd => ?odd⟩
  case even =>
    have hlen : 2 * (hs.length / 2) = hs.length := by omega
    rw [expand_pair, hlen, List.take_length]
  case odd =>
    have hlen : 2 * (hs.length / 2) = hs.length - 1 := by omega
    rw [expand_pair, hlen, List.dropLast_eq_take]

/-- Settles O23: the elements of the two lists are nibbles and joined digits, read as numbers. -/
theorem expandAndPairElementwise : Obligations.ExpandAndPairElementwise := by
  refine ⟨fun bs => ⟨length_expand bs, fun k h => ?nibbles⟩, fun hs => ⟨length_pair hs, fun k h => ?byte⟩⟩
  case nibbles =>
    rw [getElem?_expand_even, getElem?_expand_odd, List.getElem?_eq_getElem h]
    exact ⟨congrArg some (toNat_hiDigit _), congrArg some (toNat_loDigit _)⟩
  case byte =>
    rw [getElem?_pair hs k h]
    exact congrArg some (toNat_joinDigits _ _)

/-! ## The two commands (R67, R68) -/

theorem exec_b2h_of_gt {s : State} (he : s.status.err = false) (h : s.config.maxBytes < s.blen.toNat) :
    exec .b2h s = .next (s.raise .cap) := exec_of_raise he (if_pos h)

theorem exec_b2h_of_le {s : State} (he : s.status.err = false) (h : s.blen.toNat ≤ s.config.maxBytes) :
    exec .b2h s = .next (b2hBody s) := exec_of_clean he (if_neg h.not_gt)

theorem exec_h2b_of_gt {s : State} (he : s.status.err = false) (h : s.config.maxDigits < s.hlen.toNat) :
    exec .h2b s = .next (s.raise .cap) := exec_of_raise he (if_pos h)

theorem exec_h2b_of_le {s : State} (he : s.status.err = false) (h : s.hlen.toNat ≤ s.config.maxDigits) :
    exec .h2b s = .next (h2bBody s) := exec_of_clean he (if_neg h.not_gt)

/-- Twice a byte count that fits BB is a digit count that fits HB, and so a register (R6). -/
theorem two_mul_lt_of_le_maxBytes {c : Config} (hc : c.Legal) {n : Nat} (h : n ≤ c.maxBytes) : 2 * n < 2 ^ 32 := by
  obtain ⟨-, -, hd, -⟩ := hc
  unfold Config.maxBytes at h
  omega

/-- Settles O25: the digits are those `expand` puts into HB, and with legal capacities HLEN is not cut. -/
theorem bytesToHexResult : Obligations.BytesToHexResult := by
  intro s he hl
  refine ⟨exec_b2h_of_gt he, fun hb => ⟨b2hBody s, exec_b2h_of_le he hb, ?hlen, fun k hk => ?digits, ?kept, rfl⟩⟩
  case hlen => exact toNat_reg (two_mul_lt_of_le_maxBytes hl hb)
  case digits =>
    rw [b2hBody_mem, digitAt_expand_even _ hk, digitAt_expand_odd _ hk]
    exact ⟨toNat_hiDigit _, toNat_loDigit _⟩
  case kept => exact fun k hk => digitAt_expand_of_ge _ hk

/-- Settles O26: the bytes are those `pair` puts into BB, and half of a register's number fits a register. -/
theorem hexToBytesResult : Obligations.HexToBytesResult := by
  intro s he
  refine ⟨exec_h2b_of_gt he,
    fun hh => ⟨h2bBody s, exec_h2b_of_le he hh, ?blen, fun k hk => ?bytes, ?kept, oddFlag_iff _, rfl⟩⟩
  case blen => exact toNat_reg (by omega)
  case bytes => rw [h2bBody_mem, byteAt_pair _ hk, toNat_joinDigits]
  case kept => exact fun k hk => byteAt_pair_of_ge _ hk

/-! ## The loops of B2H and H2B: one write more is one element more -/

theorem bufPut_nil {α : Type} [DecidableEq α] {d : α} {m : Buffer α} (h : bufWf d m) : bufPut d m [] = m :=
  eq_of_bufRead_eq d _ _ (bufWf_bufPut d m [] h) h fun j => by simp [bufRead_bufPut]

theorem bufPut_concat {α : Type} [DecidableEq α] {d : α} {m : Buffer α} (h : bufWf d m) (vs : List α) (v : α) :
    bufPut d m (vs ++ [v]) = bufWrite d (bufPut d m vs) vs.length v := by
  refine eq_of_bufRead_eq d _ _ (bufWf_bufPut d m _ h) (bufWf_bufWrite d _ _ v (bufWf_bufPut d m vs h)) fun j => ?_
  rw [bufRead_bufWrite, bufRead_bufPut, bufRead_bufPut, List.length_append, List.length_singleton]
  rcases lt_trichotomy j vs.length with hj | rfl | hj
  · rw [if_pos (by omega), if_neg hj.ne, if_pos hj, List.getD_append _ _ _ _ hj]
  · simp
  · rw [if_neg (by omega), if_neg hj.ne', if_neg hj.not_gt]

theorem putDigits_nil {m : Memory} (h : m.wf) : m.putDigits [] = m := by
  obtain ⟨-, hhb, -⟩ := h
  rw [Memory.putDigits, bufPut_nil hhb]

theorem putDigits_concat {m : Memory} (h : m.wf) (hs : List Digit) (d : Digit) :
    m.putDigits (hs ++ [d]) = (m.putDigits hs).setDigit hs.length d := by
  obtain ⟨-, hhb, -⟩ := h
  rw [Memory.putDigits, bufPut_concat hhb]
  rfl

theorem putBytes_nil {m : Memory} (h : m.wf) : m.putBytes [] = m := by
  obtain ⟨hbb, -⟩ := h
  rw [Memory.putBytes, bufPut_nil hbb]

theorem putBytes_concat {m : Memory} (h : m.wf) (bs : List Byte) (b : Byte) :
    m.putBytes (bs ++ [b]) = (m.putBytes bs).setByte bs.length b := by
  obtain ⟨hbb, -⟩ := h
  rw [Memory.putBytes, bufPut_concat hbb]
  rfl

theorem bufTake_succ {α : Type} (d : α) (m : Buffer α) (n : Nat) :
    bufTake d m (n + 1) = bufTake d m n ++ [bufRead d m n] := by
  simp [bufTake, List.range_succ]

theorem bytes_succ (m : Memory) (n : Nat) : m.bytes (n + 1) = m.bytes n ++ [m.byteAt n] := bufTake_succ _ _ _

theorem digits_succ (m : Memory) (n : Nat) : m.digits (n + 1) = m.digits n ++ [m.digitAt n] := bufTake_succ _ _ _

theorem ofNat_div_eq_hiDigit (b : Byte) : BitVec.ofNat 4 (b.toNat / 16) = hiDigit b := by
  rw [← toNat_hiDigit, BitVec.ofNat_toNat, BitVec.setWidth_eq]

theorem ofNat_mod_eq_loDigit (b : Byte) : BitVec.ofNat 4 (b.toNat % 16) = loDigit b := by
  rw [← toNat_loDigit, BitVec.ofNat_toNat, BitVec.setWidth_eq]

theorem ofNat_add_eq_joinDigits (d1 d2 : Digit) : BitVec.ofNat 8 (16 * d1.toNat + d2.toNat) = joinDigits d1 d2 := by
  rw [← toNat_joinDigits, BitVec.ofNat_toNat, BitVec.setWidth_eq]

/-- The last round of R67's loop. -/
theorem expandLoop_succ (m : Memory) (n : Nat) :
    expandLoop m (n + 1) =
      ((expandLoop m n).setDigit (2 * n) (hiDigit ((expandLoop m n).byteAt n))).setDigit (2 * n + 1)
        (loDigit ((expandLoop m n).byteAt n)) := by
  simp [expandLoop, List.range_succ, ofNat_div_eq_hiDigit, ofNat_mod_eq_loDigit]

/-- The last round of R68's loop. -/
theorem pairLoop_succ (m : Memory) (n : Nat) :
    pairLoop m (n + 1) =
      (pairLoop m n).setByte n (joinDigits ((pairLoop m n).digitAt (2 * n)) ((pairLoop m n).digitAt (2 * n + 1))) := by
  simp [pairLoop, List.range_succ, ofNat_add_eq_joinDigits]

/-- R67's loop reads BB, which it does not write, and appends two digits a round. -/
theorem expandLoop_eq_putDigits {m : Memory} (h : m.wf) (n : Nat) :
    expandLoop m n = m.putDigits (expand (m.bytes n)) := by
  induction n with
  | zero => exact (putDigits_nil h).symm
  | succ n ih =>
    have happ : expand (m.bytes (n + 1)) =
        expand (m.bytes n) ++ [hiDigit (m.byteAt n)] ++ [loDigit (m.byteAt n)] := by
      rw [bytes_succ, expand_append, List.append_assoc]
      rfl
    rw [expandLoop_succ, ih, happ, putDigits_concat h, putDigits_concat h]
    simp

/-- R68's loop reads HB, which it does not write, and appends one byte a round. -/
theorem pairLoop_eq_putBytes {m : Memory} (h : m.wf) (n : Nat) :
    pairLoop m n = m.putBytes (pair (m.digits (2 * n))) := by
  induction n with
  | zero => exact (putBytes_nil h).symm
  | succ n ih =>
    have happ : pair (m.digits (2 * (n + 1))) =
        pair (m.digits (2 * n)) ++ [joinDigits (m.digitAt (2 * n)) (m.digitAt (2 * n + 1))] := by
      rw [Nat.mul_succ, digits_succ, digits_succ, List.append_assoc, pair_append (by simp)]
      rfl
    rw [pairLoop_succ, ih, happ, putBytes_concat h]
    simp

/-- An odd last digit of the valid part takes part in no byte. -/
theorem pair_digits_even_part (m : Memory) (n : Nat) : pair (m.digits (2 * (n / 2))) = pair (m.digits n) := by
  rcases Nat.even_or_odd' n with ⟨k, rfl | rfl⟩
  · rw [Nat.mul_div_cancel_left k two_pos]
  · have hk : (2 * k + 1) / 2 = k := by omega
    rw [hk, digits_succ, pair_append (by simp)]
    simp [pair]

/-! ## The loops of LAYOUT and DRAWC: row by row, and in a row pixel by pixel -/

/-- Memories that agree on BB and HB as data are equal when every pixel is. -/
theorem eq_of_pixels {m m' : Memory} (h : m.wf) (h' : m'.wf) (hbb : m.bb = m'.bb) (hhb : m.hb = m'.hb)
    (hp : ∀ x y, m.pixelAt x y = m'.pixelAt x y) : m = m' :=
  eq_of_reads h h' (fun k => by rw [Memory.byteAt, Memory.byteAt, hbb])
    (fun k => by rw [Memory.digitAt, Memory.digitAt, hhb]) hp

/-- One guarded write of a paint loop. -/
theorem pixelAt_ite_setPixel (m : Memory) (b : Bool) (x y x' y' : Nat) (p : Pixel) :
    (if b then m.setPixel x y p else m).pixelAt x' y' = if b ∧ x' = x ∧ y' = y then p else m.pixelAt x' y' := by
  cases b <;> simp [pixelAt_setPixel]

/-- The inner loop of `paintLoop`: the pixels `(x0 + u, v)` of row `v`, one write each. -/
def paintRowLoop (m : Memory) (x0 w v : Nat) (on : Nat → Nat → Bool) (p : Pixel) : Memory :=
  (List.range w).foldl (fun m u => if on u v then m.setPixel (x0 + u) v p else m) m

theorem paintRowLoop_succ (m : Memory) (x0 w v : Nat) (on : Nat → Nat → Bool) (p : Pixel) :
    paintRowLoop m x0 (w + 1) v on p =
      if on w v then (paintRowLoop m x0 w v on p).setPixel (x0 + w) v p else paintRowLoop m x0 w v on p := by
  simp [paintRowLoop, List.range_succ]

theorem paintLoop_succ (m : Memory) (x0 w h : Nat) (on : Nat → Nat → Bool) (p : Pixel) :
    paintLoop m x0 w (h + 1) on p = paintRowLoop (paintLoop m x0 w h on p) x0 w h on p := by
  simp [paintLoop, paintRowLoop, List.range_succ]

theorem wf_paintRowLoop {m : Memory} (h : m.wf) (x0 w v : Nat) (on : Nat → Nat → Bool) (p : Pixel) :
    (paintRowLoop m x0 w v on p).wf := by
  induction w with
  | zero => exact h
  | succ w ih =>
    rw [paintRowLoop_succ]
    split
    · exact wf_setPixel ih _ _ _
    · exact ih

@[simp] theorem paintRowLoop_bb (m : Memory) (x0 w v : Nat) (on : Nat → Nat → Bool) (p : Pixel) :
    (paintRowLoop m x0 w v on p).bb = m.bb := by
  induction w with
  | zero => rfl
  | succ w ih => rw [paintRowLoop_succ, apply_ite Memory.bb, setPixel_bb, ite_self, ih]

@[simp] theorem paintRowLoop_hb (m : Memory) (x0 w v : Nat) (on : Nat → Nat → Bool) (p : Pixel) :
    (paintRowLoop m x0 w v on p).hb = m.hb := by
  induction w with
  | zero => rfl
  | succ w ih => rw [paintRowLoop_succ, apply_ite Memory.hb, setPixel_hb, ite_self, ih]

/-- A row's loop paints the pixels of its row for which `on` holds, and no others. -/
theorem pixelAt_paintRowLoop (m : Memory) (x0 w v : Nat) (on : Nat → Nat → Bool) (p : Pixel) (x y : Nat) :
    (paintRowLoop m x0 w v on p).pixelAt x y =
      if x0 ≤ x ∧ x < x0 + w ∧ y = v ∧ on (x - x0) v = true then p else m.pixelAt x y := by
  induction w with
  | zero => exact (if_neg (by omega)).symm
  | succ w ih =>
    rw [paintRowLoop_succ, pixelAt_ite_setPixel, ih]
    by_cases hx : x = x0 + w
    · subst hx; simp [and_comm]
    · have hlt : x < x0 + (w + 1) ↔ x < x0 + w := by omega
      simp [hx, hlt]

/-- The loops of R73 and R76 paint what `paint` paints. -/
theorem paintLoop_eq_paint {m : Memory} (hm : m.wf) (x0 w h : Nat) (on : Nat → Nat → Bool) (p : Pixel) :
    paintLoop m x0 w h on p = m.paint x0 w h on p := by
  induction h with
  | zero =>
    exact eq_of_pixels hm (wf_paint hm x0 w 0 on p) rfl rfl fun x y => by simp [paintLoop, pixelAt_paint]
  | succ h ih =>
    rw [paintLoop_succ, ih]
    refine eq_of_pixels (wf_paintRowLoop (wf_paint hm ..) ..) (wf_paint hm ..) (by simp) (by simp) fun x y => ?_
    rw [pixelAt_paintRowLoop, pixelAt_paint, pixelAt_paint]
    by_cases hy : y = h
    · subst hy; simp
    · have hlt : y < h + 1 ↔ y < h := by omega
      simp [hy, hlt]

/-- Settles O60: each body's bulk operation is its rule's loop. -/
theorem bulkOperationsAreThePseudocodeLoops : Obligations.BulkOperationsAreThePseudocodeLoops := by
  intro s hm
  refine ⟨?b2h, ?h2b, ?layout, ?drawc⟩
  case b2h => exact (expandLoop_eq_putDigits hm _).symm
  case h2b => rw [pairLoop_eq_putBytes hm, pair_digits_even_part, h2bBody_mem]
  case layout => exact (paintLoop_eq_paint hm _ _ _ _ _).symm
  case drawc => exact (paintLoop_eq_paint hm _ _ _ _ _).symm

end Sys2Proof.Machine

/-! # Proofs: the encoder's commands and the picture they draw (42_encoder.md) -/

namespace Sys2Proof.Machine

/-! ## Which error a command takes: the first column of R113 that applies, in the order CFG, CAP, RANGE -/

theorem checkOf_eq_cfg {i : Instr} {s : State} (h : CfgWhen i s) : checkOf i s = some .cfg := by
  cases i <;> simp only [CfgWhen, BitVec.toNat_eq, BitVec.toNat_ofNat, Nat.zero_mod] at h <;> exact if_pos h

theorem checkOf_eq_cap {i : Instr} {s : State} (hcfg : ¬CfgWhen i s) (h : CapWhen i s) : checkOf i s = some .cap := by
  cases i <;> simp only [CfgWhen, CapWhen, ceilingOf, BitVec.toNat_eq, BitVec.toNat_ofNat, Nat.zero_mod] at hcfg h
  case b2h | h2b => exact if_pos h
  case drawc | probec => exact (if_neg hcfg).trans (if_pos h)
  case layout | enc => exact (if_neg hcfg).trans ((ite_or ..).symm.trans (if_pos h))
  case grid | dec => exact (if_neg hcfg).trans ((ite_or ..).symm.trans (if_pos (or_assoc.2 h)))

theorem checkOf_eq_range {i : Instr} {s : State} (hcfg : ¬CfgWhen i s) (hcap : ¬CapWhen i s) (h : RangeWhen i s) :
    checkOf i s = some .range := by
  cases i <;> simp only [RangeWhen] at h <;>
    simp only [CfgWhen, CapWhen, BitVec.toNat_eq, BitVec.toNat_ofNat, Nat.zero_mod] at hcfg hcap
  case drawc | probec => exact (if_neg hcfg).trans ((if_neg hcap).trans (if_pos h))

theorem exec_of_cfgWhen {i : Instr} {s : State} (he : s.status.err = false) (h : CfgWhen i s) :
    exec i s = .next (latched 2#3 s) := exec_of_raise he (checkOf_eq_cfg h)

theorem exec_of_capWhen {i : Instr} {s : State} (he : s.status.err = false) (hcfg : ¬CfgWhen i s)
    (h : CapWhen i s) : exec i s = .next (latched 3#3 s) := exec_of_raise he (checkOf_eq_cap hcfg h)

theorem exec_of_rangeWhen {i : Instr} {s : State} (he : s.status.err = false) (hcfg : ¬CfgWhen i s)
    (hcap : ¬CapWhen i s) (h : RangeWhen i s) : exec i s = .next (latched 4#3 s) :=
  exec_of_raise he (checkOf_eq_range hcfg hcap h)

theorem exec_eq_bodyOf {i : Instr} {s : State} (he : s.status.err = false) (h : Clean i s) :
    exec i s = .next (bodyOf i s) := exec_of_clean he ((checkOf_eq_none_iff i s).2 h)

theorem eq_bodyOf_of_exec {i : Instr} {s t : State} (he : s.status.err = false) (h : Clean i s)
    (ht : exec i s = .next t) : t = bodyOf i s := Host.Outcome.next.inj (ht.symm.trans (exec_eq_bodyOf he h))

/-! ## The segments (R75, R81) -/

theorem coverBackslash_iff (n w u v : Nat) :
    coverBackslash n w u v = true ↔ (u < n ∧ v < n) ∧ absDiff u v ≤ w - 1 := by simp [coverBackslash, inCell]

theorem coverSlash_iff (n w u v : Nat) :
    coverSlash n w u v = true ↔ (u < n ∧ v < n) ∧ absDiff (u + v) n ≤ w - 1 := by simp [coverSlash, inCell]

theorem coverVertical_iff (n w u v : Nat) :
    coverVertical n w u v = true ↔ (u < n ∧ v < n) ∧ u ≤ w - 1 := by simp [coverVertical, inCell]

theorem coverHorizontal_iff (n w u v : Nat) :
    coverHorizontal n w u v = true ↔ (u < n ∧ v < n) ∧ v ≤ w - 1 := by simp [coverHorizontal, inCell]

/-- Settles O33: in a cell of size 2 or more every probe is inside the cell; it lies on its diagonal, or, for the two
edges, at distance 1 from the edge. -/
theorem segmentsLightTheirOwnProbes : Obligations.SegmentsLightTheirOwnProbes := by
  intro n w hn hw
  simp only [coverBackslash_iff, coverSlash_iff, coverVertical_iff, coverHorizontal_iff, absDiff]
  refine ⟨⟨?_, ?_⟩, ⟨?_, ?_⟩, ?_, ?_⟩ <;> omega

/-! ## LAYOUT (R73) -/

/-- LAYOUT paints its image black and no other pixel. -/
theorem pixelAt_layoutBody (s : State) (x y : Nat) :
    (layoutBody s).mem.pixelAt x y =
      if x < max 1 s.hlen.toNat * s.cell.toNat ∧ y < s.cell.toNat then Pixel.black else s.mem.pixelAt x y := by
  simp [pixelAt_paint]

/-- Settles O27: with legal capacities the checked dimensions fit their registers. -/
theorem layoutResult : Obligations.LayoutResult := by
  intro s he hl
  obtain ⟨-, -, hd, -, hW, -⟩ := hl
  refine ⟨exec_of_cfgWhen (i := .layout) he, exec_of_capWhen (i := .layout) he, fun hcell hcap hw hh => ?_⟩
  have hclean : Clean .layout s := ⟨hcell, by simp [CapWhen, *], id⟩
  have himw : (layoutBody s).imw.toNat = max 1 s.hlen.toNat * s.cell.toNat := toNat_reg (by omega)
  have himh : (layoutBody s).imh.toNat = s.cell.toNat := toNat_reg s.cell.isLt
  refine ⟨layoutBody s, exec_eq_bodyOf he hclean, toNat_reg (by omega), rfl, himw, himh, rfl, rfl, emptyFlag_iff _,
    fun x y hx hy => ?inside, fun x y hxy => ?outside, rfl⟩
  case inside => rw [pixelAt_layoutBody, ← himw, ← himh, if_pos ⟨hx, hy⟩]; rfl
  case outside => rw [pixelAt_layoutBody, ← himw, ← himh, if_neg hxy]

/-! ## DRAWC (R77) -/

/-- Settles O28: the cursor is below HLEN, so the cursor after it fits CCOL. -/
theorem drawCellResult : Obligations.DrawCellResult := by
  intro s he
  refine ⟨exec_of_cfgWhen (i := .drawc) he,
    fun hcell hlw => exec_of_capWhen (i := .drawc) he (not_or.2 ⟨hcell, hlw⟩),
    fun hcell hlw hd hw hh => exec_of_rangeWhen (i := .drawc) he (not_or.2 ⟨hcell, hlw⟩) (by simp [CapWhen, *]),
    fun hcell hlw hd hw hh hcol => ?_⟩
  have hclean : Clean .drawc s := ⟨not_or.2 ⟨hcell, hlw⟩, by simp [CapWhen, *], hcol.not_ge⟩
  refine ⟨drawcBody s, exec_eq_bodyOf he hclean, rfl, quadReg_digitToBits _, toNat_reg (by omega),
    fun x y => ?pixel, rfl⟩
  case pixel =>
    rw [drawcBody_mem, pixelAt_drawCell, Nat.succ_mul]
    rfl

/-- Drawing the same digit in the same cell of the drawn image: a covered pixel is white already. -/
theorem pixelAt_drawcBody_again (s : State) (x y : Nat) :
    (drawcBody { drawcBody s with ccol := s.ccol }).mem.pixelAt x y = (drawcBody s).mem.pixelAt x y := by
  simp only [drawcBody_mem, digitAt_drawCell, pixelAt_drawCell, drawcBody_cell, drawcBody_lw, drawcBody_imw,
    drawcBody_imh]
  split <;> rfl

/-- Settles O32: the check passes again, since of what it reads DRAWC writes CCOL only, and that is set back. -/
theorem drawingACellTwiceIsDrawingItOnce : Obligations.DrawingACellTwiceIsDrawingItOnce := by
  intro s t u he hclean ht hu x y
  obtain rfl := eq_bodyOf_of_exec he hclean ht
  obtain rfl := eq_bodyOf_of_exec (s := { drawcBody s with ccol := s.ccol }) he hclean hu
  exact pixelAt_drawcBody_again s x y

/-! ## ENC (R78, R80) -/

theorem digitAt_encBody (s : State) (k : Nat) :
    (encBody s).mem.digitAt k = (s.mem.putDigits (expand (s.mem.bytes s.blen.toNat))).digitAt k := by
  rw [encBody_frame]; rfl

/-- The rounds of DRAWC leave LAYOUT's dimensions. -/
theorem encBody_imw (s : State) : (encBody s).imw = (layoutBody (b2hBody s)).imw := by rw [encBody_frame]; rfl

@[simp] theorem encBody_crow (s : State) : (encBody s).crow = reg 0 := by rw [encBody_frame]

@[simp] theorem encBody_imh (s : State) : (encBody s).imh = s.cell := by
  rw [encBody_frame]; exact reg_toNat s.cell

section Enc
variable {s : State} (hl : s.config.Legal) (hc : Clean .enc s)

include hc in
theorem cell_pos_of_clean_enc : 0 < s.cell.toNat := by
  obtain ⟨hcfg, -⟩ := hc
  exact Nat.pos_of_ne_zero fun h => hcfg (.inl (BitVec.eq_of_toNat_eq h))

include hc in
theorem fits_of_clean_enc : s.blen.toNat ≤ s.config.maxBytes ∧
    max 1 (2 * s.blen.toNat) * s.cell.toNat ≤ s.config.maxW ∧ s.cell.toNat ≤ s.config.maxH := by
  obtain ⟨-, hcap, -⟩ := hc
  simpa only [CapWhen, not_or, not_lt] using hcap

include hl hc

/-- ENC's digit count fits HLEN. -/
theorem two_mul_blen_lt_of_clean_enc : 2 * s.blen.toNat < 2 ^ 32 :=
  two_mul_lt_of_le_maxBytes hl (fits_of_clean_enc hc).1

theorem toNat_hlen_b2hBody : (b2hBody s).hlen.toNat = 2 * s.blen.toNat :=
  toNat_reg (two_mul_blen_lt_of_clean_enc hl hc)

theorem toNat_encBody_hlen : (encBody s).hlen.toNat = 2 * s.blen.toNat := by
  rw [encBody_hlen, ← b2hBody_hlen, toNat_hlen_b2hBody hl hc]

theorem toNat_encBody_cols : (encBody s).cols.toNat = max 1 (2 * s.blen.toNat) := by
  have h := two_mul_blen_lt_of_clean_enc hl hc
  rw [encBody_cols, toNat_reg h, toNat_reg (by omega)]

theorem toNat_encBody_imw : (encBody s).imw.toNat = max 1 (2 * s.blen.toNat) * s.cell.toNat := by
  have h := toNat_hlen_b2hBody hl hc
  obtain ⟨-, -, -, -, hW, -⟩ := hl
  obtain ⟨-, hw, -⟩ := fits_of_clean_enc hc
  rw [encBody_imw, layoutBody_imw, h, b2hBody_cell]
  exact toNat_reg (by omega)

/-- ENC's rounds of DRAWC start at column 0 of LAYOUT's black image and draw every digit. -/
theorem encBody_rounds :
    (encBody s).ccol.toNat = 2 * s.blen.toNat ∧
      (encBody s).dig = (if s.blen.toNat = 0 then s.dig else (encBody s).mem.digitAt (2 * s.blen.toNat - 1)) ∧
      (encBody s).quad = (if s.blen.toNat = 0 then s.quad else (encBody s).mem.digitAt (2 * s.blen.toNat - 1)) ∧
      ∀ x y, (encBody s).mem.pixelAt x y =
        if x / s.cell.toNat < 2 * s.blen.toNat ∧ y < s.cell.toNat ∧ x < (encBody s).imw.toNat ∧
            y < (encBody s).imh.toNat ∧
            GlyphWhite ((encBody s).mem.digitAt (x / s.cell.toNat)) s.cell.toNat s.lw.toNat (x % s.cell.toNat) y
        then Pixel.white else (layoutBody (b2hBody s)).mem.pixelAt x y := by
  obtain ⟨hcol, hdig, hquad, hpix⟩ := drawc_rounds (2 * s.blen.toNat) (layoutBody (b2hBody s)) rfl
    (cell_pos_of_clean_enc hc) (two_mul_blen_lt_of_clean_enc hl hc)
  have hzero : 2 * s.blen.toNat = 0 ↔ s.blen.toNat = 0 := by omega
  simp only [hzero] at hdig hquad
  simp only [digitAt_encBody, encBody_imw, encBody_imh]
  simp only [layoutBody_imh, b2hBody_cell, reg_toNat] at hpix
  exact ⟨hcol, hdig, hquad, hpix⟩

/-- Every cell of the image belongs to a digit, but for the one cell of the empty input (R72). -/
theorem cell_lt_digits_iff {x : Nat} (hx : x < (encBody s).imw.toNat) :
    x / s.cell.toNat < 2 * s.blen.toNat ↔ 0 < s.blen.toNat := by
  rw [toNat_encBody_imw hl hc, ← Nat.div_lt_iff_lt_mul (cell_pos_of_clean_enc hc)] at hx
  generalize x / s.cell.toNat = c at hx ⊢
  omega

/-- The image in closed form (R80). -/
theorem pixelAt_encBody (x y : Nat) :
    (encBody s).mem.pixelAt x y =
      if x < (encBody s).imw.toNat ∧ y < (encBody s).imh.toNat then
        if 0 < s.blen.toNat ∧ GlyphWhite ((encBody s).mem.digitAt (x / s.cell.toNat)) s.cell.toNat s.lw.toNat
            (x % s.cell.toNat) y
        then Pixel.white else Pixel.black
      else s.mem.pixelAt x y := by
  obtain ⟨-, -, -, hpix⟩ := encBody_rounds hl hc
  have himg : (layoutBody (b2hBody s)).mem.pixelAt x y =
      if x < (encBody s).imw.toNat ∧ y < (encBody s).imh.toNat then Pixel.black else s.mem.pixelAt x y := by
    rw [pixelAt_layoutBody, toNat_hlen_b2hBody hl hc, toNat_encBody_imw hl hc, encBody_imh]
    rfl
  rw [hpix, himg]
  by_cases hin : x < (encBody s).imw.toNat ∧ y < (encBody s).imh.toNat
  · obtain ⟨hx, hy⟩ := hin
    have hy' : y < s.cell.toNat := by rwa [encBody_imh] at hy
    simp only [cell_lt_digits_iff hl hc hx, hx, hy, hy', true_and, and_self, if_true]
  · rw [if_neg hin, if_neg hin, if_neg fun ⟨_, _, hx, hy, _⟩ => hin ⟨hx, hy⟩]

end Enc

/-- Settles O29: HB is B2H's, the dimensions are LAYOUT's, the cursor, the last digit and the pictures are those of
DRAWC's rounds. -/
theorem encodeResult : Obligations.EncodeResult := by
  intro s he hl
  refine ⟨exec_of_cfgWhen (i := .enc) he, fun hcell hlw => exec_of_capWhen (i := .enc) he (not_or.2 ⟨hcell, hlw⟩),
    fun hcell hlw hb hw hh => ?_⟩
  have hc : Clean .enc s := ⟨not_or.2 ⟨hcell, hlw⟩, by simp [CapWhen, *], id⟩
  obtain ⟨hcol, hdig, hquad, -⟩ := encBody_rounds hl hc
  have hhlen := toNat_encBody_hlen hl hc
  refine ⟨encBody s, exec_eq_bodyOf he hc, hhlen, toNat_encBody_cols hl hc, ?rows, toNat_encBody_imw hl hc, ?imh, hcol,
    ?crow, ?empty, fun k hk => ?digits, fun k hk => ?kept, fun h0 => ?noDigit, fun h0 => ?lastDigit,
    pixelAt_encBody hl hc, ?frame⟩
  case rows => rw [encBody_rows]; rfl
  case imh => rw [encBody_imh]
  case crow => rw [encBody_crow]; rfl
  case empty => rw [encBody_status, hhlen, emptyFlag_iff]; omega
  case digits =>
    rw [digitAt_encBody, digitAt_encBody, digitAt_expand_even _ hk, digitAt_expand_odd _ hk]
    exact ⟨toNat_hiDigit _, toNat_loDigit _⟩
  case kept => rw [digitAt_encBody, digitAt_expand_of_ge _ hk]
  case noDigit => rw [hdig, hquad, if_pos h0, if_pos h0]; exact ⟨rfl, rfl⟩
  case lastDigit => rw [hdig, hquad, if_neg h0.ne', if_neg h0.ne']; exact ⟨rfl, rfl⟩
  case frame => rw [encBody_frame]

/-! ## What ENC reads (R79 b) -/

/-- The states agree on what ENC reads: the capacities, CELL, LW and the valid bytes. -/
structure SameEncInputs (s s' : State) : Prop where
  config : s.config = s'.config
  cell : s.cell = s'.cell
  lw : s.lw = s'.lw
  blen : s.blen = s'.blen
  bytes : ∀ k < s.blen.toNat, s.mem.byteAt k = s'.mem.byteAt k

theorem SameEncInputs.clean {s s' : State} (h : SameEncInputs s s') (hc : Clean .enc s) : Clean .enc s' := by
  obtain ⟨hconfig, hcell, hlw, hblen, -⟩ := h
  simpa only [Clean, CfgWhen, CapWhen, RangeWhen, hconfig, hcell, hlw, hblen] using hc

theorem SameEncInputs.digits {s s' : State} (h : SameEncInputs s s') {k : Nat} (hk : k < 2 * s.blen.toNat) :
    (encBody s).mem.digitAt k = (encBody s').mem.digitAt k := by
  have hbytes : s.mem.bytes s.blen.toNat = s'.mem.bytes s.blen.toNat :=
    List.map_congr_left fun j hj => h.bytes j (List.mem_range.1 hj)
  rw [digitAt_encBody, digitAt_encBody, ← h.blen, ← hbytes, digitAt_putDigits, digitAt_putDigits]
  simp [hk]

theorem SameEncInputs.imw {s s' : State} (h : SameEncInputs s s') : (encBody s).imw = (encBody s').imw := by
  simp only [encBody_imw, layoutBody_imw, b2hBody_hlen, b2hBody_cell, h.blen, h.cell]

theorem SameEncInputs.imh {s s' : State} (h : SameEncInputs s s') : (encBody s).imh = (encBody s').imh := by
  simp only [encBody_imh, h.cell]

theorem SameEncInputs.pixels {s s' : State} (h : SameEncInputs s s') (hl : s.config.Legal) (hc : Clean .enc s)
    {x y : Nat} (hx : x < (encBody s).imw.toNat) (hy : y < (encBody s).imh.toNat) :
    (encBody s).mem.pixelAt x y = (encBody s').mem.pixelAt x y := by
  rw [pixelAt_encBody hl hc, pixelAt_encBody (h.config ▸ hl) (h.clean hc), ← h.imw, ← h.imh, ← h.cell, ← h.lw,
    ← h.blen]
  simp only [hx, hy, and_self, if_true]
  by_cases h0 : 0 < s.blen.toNat
  · rw [h.digits ((cell_lt_digits_iff hl hc hx).2 h0)]
  · simp only [h0, false_and]

/-- Settles O30: both runs end in ENC's body, whose results are functions of what the states share. -/
theorem encodeDependsOnItsInputsOnly : Obligations.EncodeDependsOnItsInputsOnly := by
  intro s s' t t' he he' hconfig hcell hlw hblen hl hbytes hc ht ht'
  have h : SameEncInputs s s' := ⟨hconfig, hcell, hlw, hblen, hbytes⟩
  obtain rfl := eq_bodyOf_of_exec he hc ht
  obtain rfl := eq_bodyOf_of_exec he' (h.clean hc) ht'
  obtain ⟨hcol, -⟩ := encBody_rounds hl hc
  obtain ⟨hcol', -⟩ := encBody_rounds (hconfig ▸ hl) (h.clean hc)
  refine ⟨h.imw, h.imh, ?hlen, ?cols, ?rows, ?ccol, ?crow, ?empty, fun k hk => h.digits ?digit,
    fun x y => h.pixels hl hc⟩
  case hlen => simp only [bodyOf, encBody_hlen, hblen]
  case cols => simp only [bodyOf, encBody_cols, hblen]
  case rows => simp only [bodyOf, encBody_rows]
  case ccol => exact BitVec.eq_of_toNat_eq (hcol.trans (hcol'.trans (by rw [hblen])).symm)
  case crow => simp only [bodyOf, encBody_crow]
  case empty => simp only [bodyOf, encBody_status, encBody_hlen, hblen]
  case digit => rwa [← toNat_encBody_hlen hl hc]

end Sys2Proof.Machine

/-! # Proofs: the decoder's commands, and what they return for an image the encoder made (43_decoder.md) -/

namespace Sys2Proof.Machine

/-! ## The probes (R88 to R90) -/

/-- Settles O34: the machine's test is the rule's, and a pixel just written reads as what was written. -/
theorem litIsRedAboveTheThreshold : Obligations.LitIsRedAboveTheThreshold := by
  refine ⟨lit_iff, fun s x y r g b => ?written⟩
  case written => rw [lit_iff, IsLit, pixelAt_setPixel, if_pos ⟨rfl, rfl⟩]

theorem lit_of_imh_le {s : State} {x y : Nat} (h : s.imh.toNat ≤ y) : s.lit x y = false := by
  simp [State.lit, h.not_gt]

/-- Settles O46: the probes of the two diagonals and of the horizontal have row 1, below the image's one row; the
vertical's is the pixel of column `c + 1`, row 0. -/
theorem cellSizeOneReadsTheNextCell : Obligations.CellSizeOneReadsTheNextCell := by
  intro s c hcell himh
  have hbelow : ∀ x, s.lit x 1 = false := fun x => lit_of_imh_le (by rw [himh]; decide)
  simp [State.probeCell, hcell, hbelow]

/-- A pixel inside the image that shows white where `b` holds and black elsewhere is lit exactly where `b` holds. -/
theorem lit_of_white_or_black {s : State} {x y : Nat} {b : Bool} (hx : x < s.imw.toNat) (hy : y < s.imh.toNat)
    (hp : s.mem.pixelAt x y = if b = true then Pixel.white else Pixel.black) : s.lit x y = b := by
  cases b <;> simp [State.lit, hp, hx, hy, Pixel.white, Pixel.black, thresh]

/-- In a dark image every cell's four flags are 0. -/
theorem probeCell_of_dark {s : State} (h : ∀ x y, s.lit x y = false) (c r : Nat) :
    s.probeCell c r = ⟨false, false, false, false⟩ := by
  simp [State.probeCell, h]

theorem lit_of_black_image {s : State}
    (h : ∀ x y, x < s.imw.toNat → y < s.imh.toNat → s.mem.pixelAt x y = Pixel.black) (x y : Nat) :
    s.lit x y = false := by
  rw [← Bool.not_eq_true, lit_iff]
  rintro ⟨hx, hy, hr⟩
  rw [h x y hx hy] at hr
  exact absurd hr (by decide)

/-! ## GRID (R86, R87) -/

section Grid
variable {s : State} (hc : Clean .grid s)
include hc

theorem cell_pos_of_clean_grid : 0 < s.cell.toNat := by
  obtain ⟨hcfg, -⟩ := hc
  exact Nat.pos_of_ne_zero fun h => hcfg (BitVec.eq_of_toNat_eq h)

theorem fits_of_clean_grid : s.imw.toNat ≤ s.config.maxW ∧ s.imh.toNat ≤ s.config.maxH ∧
    s.gridCols * s.gridRows ≤ s.config.maxDigits := by
  obtain ⟨-, hcap, -⟩ := hc
  simpa only [CapWhen, ceilingOf, not_or, not_lt] using hcap

/-- The grid's columns are at most the image's, so they fit COLS. -/
theorem toNat_reg_gridCols : (reg s.gridCols).toNat = s.gridCols :=
  toNat_reg ((ceilDiv_le (cell_pos_of_clean_grid hc)).trans_lt s.imw.isLt)

theorem toNat_reg_gridRows : (reg s.gridRows).toNat = s.gridRows :=
  toNat_reg ((ceilDiv_le (cell_pos_of_clean_grid hc)).trans_lt s.imh.isLt)

end Grid

/-- Settles O35: a ceiling does not exceed its dividend, so the grid fits its registers. -/
theorem gridResult : Obligations.GridResult := by
  intro s he
  refine ⟨exec_of_cfgWhen (i := .grid) he, exec_of_capWhen (i := .grid) he, fun hcell hw hh hgrid => ?_⟩
  have hc : Clean .grid s := ⟨hcell, by simp [CapWhen, *], id⟩
  exact ⟨gridBody s, exec_eq_bodyOf he hc, toNat_reg_gridCols hc, toNat_reg_gridRows hc, rfl, rfl, rfl, rfl⟩

/-! ## PROBEC (R92) -/

/-- PROBEC writes DIG, QUAD, HLEN, the cursor and HB, and nothing else. -/
theorem probecBody_frame (s : State) :
    probecBody s =
      { s with dig := (probecBody s).dig, quad := (probecBody s).quad, hlen := (probecBody s).hlen,
               ccol := (probecBody s).ccol, crow := (probecBody s).crow,
               mem := { s.mem with hb := (probecBody s).mem.hb } } := probec_rounds_frame 1 s

/-- Settles O36: the digit goes where HLEN points, and what is counted up stays below a capacity or a register's
number, so nothing is cut. -/
theorem probeCellResult : Obligations.ProbeCellResult := by
  intro s he hl
  obtain ⟨-, -, hd, -⟩ := hl
  refine ⟨exec_of_cfgWhen (i := .probec) he, exec_of_capWhen (i := .probec) he,
    fun hcell hw hh hlen => exec_of_rangeWhen (i := .probec) he hcell (by simp [CapWhen, *]),
    fun hcell hw hh hlen hcol hrow => ?_⟩
  have hc : Clean .probec s := ⟨hcell, by simp [CapWhen, *], by simp [RangeWhen, *]⟩
  refine ⟨probecBody s, exec_eq_bodyOf he hc, ?digit, ?quad, ?hlen, ?put, fun k hk => ?kept, fun h => ?right,
    fun h => ?nextRow, probecBody_frame s⟩
  case digit => rw [probecBody_dig]; exact probesTo_probeCell s _ _
  case quad => rw [probecBody_quad, probecBody_dig, bitsToDigit_eq_quadReg]
  case hlen => rw [probecBody_hlen, toNat_reg (by omega)]
  case put => rw [probecBody_mem, probecBody_dig, digitAt_setDigit, if_pos rfl]
  case kept => rw [probecBody_mem, digitAt_setDigit, if_neg hk]
  case right =>
    rw [probecBody_ccol, probecBody_crow, if_pos h, if_pos h, reg_toNat]
    exact ⟨toNat_reg (by omega), rfl⟩
  case nextRow =>
    rw [probecBody_ccol, probecBody_crow, if_neg h, if_neg h]
    exact ⟨rfl, toNat_reg (by omega)⟩

/-! ## Rounds of PROBEC after GRID (R92, R93) -/

/-- The grid of the image of `s`, where its scan stands after `k` cells, and the digits found so far. -/
structure ScanAt (s : State) (k : Nat) (t : State) : Prop where
  cols : t.cols.toNat = s.gridCols
  rows : t.rows.toNat = s.gridRows
  hlen : t.hlen.toNat = k
  ccol : t.ccol.toNat = k % s.gridCols
  crow : t.crow.toNat = k / s.gridCols
  dig : t.dig = if k = 0 then s.dig else t.mem.digitAt (k - 1)
  quad : t.quad = if k = 0 then s.quad else t.mem.digitAt (k - 1)
  found : ∀ j < k, t.mem.digitAt j = bitsToDigit (s.probeCell (j % s.gridCols) (j / s.gridCols))
  kept : ∀ j, k ≤ j → t.mem.digitAt j = s.mem.digitAt j

theorem scanAt_probec_rounds {s : State} (hl : s.config.Legal) (hc : Clean .grid s) {k : Nat}
    (hk : k ≤ s.gridCols * s.gridRows) : ScanAt s k (repeatBody probecBody k (gridBody s)) := by
  obtain ⟨-, -, hd, -⟩ := hl
  obtain ⟨-, -, hfit⟩ := fits_of_clean_grid hc
  have hcols : (gridBody s).cols.toNat = s.gridCols := toNat_reg_gridCols hc
  have hrows : (gridBody s).rows.toNat = s.gridRows := toNat_reg_gridRows hc
  have hprobe : ∀ c r, (gridBody s).probeCell c r = s.probeCell c r := probeCell_congr rfl fun _ _ => rfl
  obtain ⟨hhlen, hccol, hcrow, hdig, hquad, hdigits⟩ :=
    probec_rounds k (gridBody s) rfl rfl rfl (by rwa [hcols, hrows]) (by omega)
  have hf := probec_rounds_frame k (gridBody s)
  simp only [hcols, hprobe, gridBody_dig, gridBody_quad, gridBody_mem] at hccol hcrow hdig hquad hdigits
  have hlast : k ≠ 0 → (repeatBody probecBody k (gridBody s)).mem.digitAt (k - 1) =
      bitsToDigit (s.probeCell ((k - 1) % s.gridCols) ((k - 1) / s.gridCols)) :=
    fun h => by rw [hdigits, if_pos (by omega)]
  exact ⟨by rw [hf, hcols], by rw [hf, hrows], hhlen, hccol, hcrow,
    hdig.trans (ite_congr rfl (fun _ => rfl) fun h => (hlast h).symm),
    hquad.trans (ite_congr rfl (fun _ => rfl) fun h => (hlast h).symm), fun j hj => by rw [hdigits, if_pos hj],
    fun j hj => by rw [hdigits, if_neg hj.not_gt]⟩

/-! ## DEC (R93) -/

/-- DEC's bytes are its digits in pairs. -/
theorem byteAt_decBody (s : State) {k : Nat} (h : k < (decBody s).hlen.toNat / 2) :
    (decBody s).mem.byteAt k = joinDigits ((decBody s).mem.digitAt (2 * k)) ((decBody s).mem.digitAt (2 * k + 1)) :=
  byteAt_pair _ h

theorem byteAt_decBody_of_ge (s : State) {k : Nat} (h : (decBody s).hlen.toNat / 2 ≤ k) :
    (decBody s).mem.byteAt k = s.mem.byteAt k := by
  rw [decBody_frame]
  exact (byteAt_putBytes ..).trans (if_neg (by simpa using h))

theorem toNat_decBody_blen (s : State) : (decBody s).blen.toNat = (decBody s).hlen.toNat / 2 := by
  rw [decBody_frame]
  exact toNat_reg ((Nat.div_le_self _ _).trans_lt (decBody s).hlen.isLt)

section Dec
variable {s : State} (hl : s.config.Legal) (hc : Clean .dec s)
include hl hc

/-- DEC ends with the scan of the whole grid; H2B writes none of its registers, nor HB. -/
theorem scanAt_decBody : ScanAt s (s.gridCols * s.gridRows) (decBody s) := by
  obtain ⟨hcols, hrows, hhlen, hccol, hcrow, hdig, hquad, hfound, hkept⟩ := scanAt_probec_rounds hl hc le_rfl
  exact ⟨hcols, hrows, hhlen, hccol, hcrow, hdig, hquad, hfound, hkept⟩

/-- The digit of cell `(c, r)` stands at its place in raster order. -/
theorem digitAt_decBody {c r : Nat} (hcol : c < s.gridCols) (hrow : r < s.gridRows) :
    (decBody s).mem.digitAt (r * s.gridCols + c) = bitsToDigit (s.probeCell c r) := by
  obtain ⟨hr, hcm⟩ := (Nat.div_mod_unique (a := r * s.gridCols + c) (Nat.zero_lt_of_lt hcol)).2
    ⟨by rw [mul_comm, add_comm], hcol⟩
  have hlt : r * s.gridCols + c < s.gridCols * s.gridRows := by
    rwa [mul_comm s.gridCols, ← Nat.div_lt_iff_lt_mul (Nat.zero_lt_of_lt hcol), hr]
  rw [(scanAt_decBody hl hc).found _ hlt, hr, hcm]

/-- After the last cell the cursor is at the first column below the grid; without a column there was no cell. -/
theorem cursor_decBody : (decBody s).ccol.toNat = 0 ∧
    (decBody s).crow.toNat = if s.gridCols = 0 then 0 else s.gridRows := by
  have h := scanAt_decBody hl hc
  refine ⟨h.ccol.trans (Nat.mul_mod_right ..), h.crow.trans ?_⟩
  split
  · simp [*]
  · exact Nat.mul_div_cancel_left _ (by omega)

end Dec

/-- Settles O37: HB, HLEN, the cursor, DIG and QUAD are the scan's, BB, BLEN and ODD the pairing's. -/
theorem decodeResult : Obligations.DecodeResult := by
  intro s he hl
  refine ⟨exec_of_cfgWhen (i := .dec) he, exec_of_capWhen (i := .dec) he, fun hcell hw hh hgrid => ?_⟩
  have hc : Clean .dec s := ⟨hcell, by simp [CapWhen, *], id⟩
  obtain ⟨hcols, hrows, hhlen, -, -, hdig, hquad, -, hkept⟩ := scanAt_decBody hl hc
  obtain ⟨hccol, hcrow⟩ := cursor_decBody hl hc
  refine ⟨decBody s, exec_eq_bodyOf he hc, hcols, hrows, ?hlen, toNat_decBody_blen s, hccol, ?crow, ?odd,
    fun r hr c hcol => ?digits, fun k hk => ?kept, fun k hk => ?bytes, fun k hk => ?bytesKept, fun h0 => ?noCell,
    fun h0 => ?lastCell, ?frame⟩
  case hlen => rw [hhlen, hcols, hrows]
  case crow => rw [hcrow, hcols, hrows]
  case odd => rw [decBody_status, oddFlag_iff]
  case digits =>
    rw [hcols] at hcol ⊢
    rw [digitAt_decBody hl hc hcol (hrows ▸ hr)]
    exact probesTo_probeCell s c r
  case kept => exact hkept k (hhlen ▸ hk)
  case bytes => rw [byteAt_decBody s (toNat_decBody_blen s ▸ hk), toNat_joinDigits]
  case bytesKept => exact byteAt_decBody_of_ge s (toNat_decBody_blen s ▸ hk)
  case noCell => rw [hdig, hquad, if_pos (hhlen ▸ h0), if_pos (hhlen ▸ h0)]; exact ⟨rfl, rfl⟩
  case lastCell =>
    have hne : s.gridCols * s.gridRows ≠ 0 := by omega
    rw [hquad, hdig, if_neg hne, if_neg hne, hhlen]; exact ⟨rfl, rfl⟩
  case frame => rw [decBody_frame]

/-! ## What DEC reads (R99 a) -/

/-- The states agree on what DEC reads: the capacities, CELL, the dimensions and the lit pixels. -/
structure SameDecInputs (s s' : State) : Prop where
  config : s.config = s'.config
  cell : s.cell = s'.cell
  imw : s.imw = s'.imw
  imh : s.imh = s'.imh
  lit : ∀ x y, IsLit s x y ↔ IsLit s' x y

theorem SameDecInputs.clean {s s' : State} (h : SameDecInputs s s') (hc : Clean .dec s) : Clean .dec s' := by
  obtain ⟨hconfig, hcell, himw, himh, -⟩ := h
  simpa only [Clean, CfgWhen, CapWhen, RangeWhen, hconfig, hcell, himw, himh] using hc

theorem SameDecInputs.gridCols {s s' : State} (h : SameDecInputs s s') : s.gridCols = s'.gridCols := by
  rw [State.gridCols, h.imw, h.cell]

theorem SameDecInputs.gridRows {s s' : State} (h : SameDecInputs s s') : s.gridRows = s'.gridRows := by
  rw [State.gridRows, h.imh, h.cell]

theorem SameDecInputs.probeCell {s s' : State} (h : SameDecInputs s s') (c r : Nat) :
    s.probeCell c r = s'.probeCell c r :=
  probeCell_congr h.cell
    (fun x y => Bool.eq_iff_iff.2 ((lit_iff s x y).trans ((h.lit x y).trans (lit_iff s' x y).symm))) c r

/-- Settles O38: both runs end in DEC's body, whose scan is a function of the grid and the cells' probes. -/
theorem decodeDependsOnLitPixelsOnly : Obligations.DecodeDependsOnLitPixelsOnly := by
  intro s s' t t' he he' hconfig hl hcell himw himh hlit hc ht ht'
  have h : SameDecInputs s s' := ⟨hconfig, hcell, himw, himh, hlit⟩
  obtain rfl : t = decBody s := eq_bodyOf_of_exec he hc ht
  obtain rfl : t' = decBody s' := eq_bodyOf_of_exec he' (h.clean hc) ht'
  have hscan := scanAt_decBody hl hc
  have hscan' := scanAt_decBody (hconfig ▸ hl) (h.clean hc)
  rw [← h.gridCols, ← h.gridRows] at hscan'
  have hhlen : (decBody s).hlen = (decBody s').hlen := BitVec.eq_of_toNat_eq (hscan.hlen.trans hscan'.hlen.symm)
  have hdigits : ∀ k < (decBody s).hlen.toNat, (decBody s).mem.digitAt k = (decBody s').mem.digitAt k := by
    intro k hk
    rw [hscan.hlen] at hk
    rw [hscan.found k hk, hscan'.found k hk, h.probeCell, h.gridCols]
  refine ⟨BitVec.eq_of_toNat_eq ?blen, hhlen, ?cols, ?rows, BitVec.eq_of_toNat_eq ?ccol, BitVec.eq_of_toNat_eq ?crow,
    ?odd, hdigits, fun k hk => ?bytes⟩
  case blen => exact (toNat_decBody_blen s).trans (hhlen ▸ (toNat_decBody_blen s').symm)
  case cols => simp only [decBody_cols, h.gridCols]
  case rows => simp only [decBody_rows, h.gridRows]
  case ccol => rw [hscan.ccol, hscan'.ccol, h.gridCols]
  case crow => rw [hscan.crow, hscan'.crow, h.gridCols]
  case odd => simp only [decBody_status, hhlen]
  case bytes =>
    rw [toNat_decBody_blen] at hk
    rw [byteAt_decBody s hk, byteAt_decBody s' (hhlen ▸ hk), hdigits _ (by omega), hdigits _ (by omega)]

/-! ## A command issued again and again by the host (R141) -/

/-- The state with the actions `as` in the script. -/
def State.withScript (as : List HostAction) (s : State) : State := { s with script := as }

theorem advance_withScript (as : List HostAction) (s : State) :
    (s.withScript as).advance = s.advance.withScript as := by
  unfold State.advance
  rw [apply_ite (State.withScript as)]
  rfl

theorem probecBody_withScript (as : List HostAction) (s : State) :
    probecBody (s.withScript as) = (probecBody s).withScript as := by
  unfold probecBody
  rw [← advance_withScript]
  rfl

/-- What commutes with one round commutes with every number of rounds. -/
theorem repeatBody_comm {f g : State → State} (hfg : ∀ s, f (g s) = g (f s)) (n : Nat) (s : State) :
    repeatBody f n (g s) = g (repeatBody f n s) := by
  induction n generalizing s with
  | zero => rfl
  | succ n ih => exact (congrArg (repeatBody f n) (hfg s)).trans (ih (f s))

/-- No body reads the script. -/
theorem bodyOf_withScript (i : Instr) (as : List HostAction) (s : State) :
    bodyOf i (s.withScript as) = (bodyOf i s).withScript as := by
  cases i with
  | probec => exact probecBody_withScript as s
  | enc => exact repeatBody_comm (f := drawcBody) (g := State.withScript as) (fun _ => rfl) _ (layoutBody (b2hBody s))
  | dec => exact congrArg h2bBody (repeatBody_comm (probecBody_withScript as) _ (gridBody s))
  | _ => rfl

theorem clean_withScript (i : Instr) (as : List HostAction) (s : State) : Clean i (s.withScript as) ↔ Clean i s := by
  cases i <;> rfl

/-- The host's next write to CMD, of a word whose command would raise nothing, runs that command's body. -/
theorem step_withScript_cmd {w : Word} {i : Instr} (hw : decode w = .ok i) (rest : List HostAction) {s : State}
    (he : s.status.err = false) (hc : Clean i s) :
    step (s.withScript (.writeReg 0 w :: rest)) = .next ((bodyOf i s).withScript rest) := by
  rw [step_cons (rest := rest) rfl, hostAct_writeReg, writeReg_cmd, writeCmd_of_ok hw, ← bodyOf_withScript]
  exact exec_eq_bodyOf (s := s.withScript rest) he ((clean_withScript i rest s).2 hc)

/-- As many writes to CMD of one word as rounds in which its command would raise nothing run that many bodies. -/
theorem runSteps_replicate_cmd {w : Word} {i : Instr} (hw : decode w = .ok i) (rest : List HostAction) {k : Nat}
    {s : State}
    (hok : ∀ j < k, (repeatBody (bodyOf i) j s).status.err = false ∧ Clean i (repeatBody (bodyOf i) j s)) :
    runSteps k (s.withScript (List.replicate k (.writeReg 0 w) ++ rest)) =
      .next ((repeatBody (bodyOf i) k s).withScript rest) := by
  induction k generalizing s with
  | zero => rfl
  | succ k ih =>
    obtain ⟨he, hc⟩ : s.status.err = false ∧ Clean i s := hok 0 k.succ_pos
    rw [List.replicate_succ, List.cons_append, runSteps_succ_of_next (step_withScript_cmd hw _ he hc)]
    exact ih fun j hj => hok (j + 1) (Nat.succ_lt_succ hj)

/-- PROBEC raises nothing in a scan that has cells left (R93). -/
theorem clean_probec_rounds {s : State} (hl : s.config.Legal) (hc : Clean .grid s) {k : Nat}
    (hk : k < s.gridCols * s.gridRows) : Clean .probec (repeatBody probecBody k (gridBody s)) := by
  obtain ⟨hcols, hrows, hhlen, hccol, hcrow, -⟩ := scanAt_probec_rounds hl hc hk.le
  obtain ⟨hw, hh, hfit⟩ := fits_of_clean_grid hc
  have hpos : 0 < s.gridCols := Nat.pos_of_mul_pos_right (Nat.zero_lt_of_lt hk)
  have hcol := Nat.mod_lt k hpos
  have hrow := Nat.div_lt_of_lt_mul hk
  have hf := probec_rounds_frame k (gridBody s)
  generalize repeatBody probecBody k (gridBody s) = t at hcols hrows hhlen hccol hcrow hf ⊢
  refine ⟨?cfg, ?cap, ?range⟩
  case cfg => rw [hf]; exact hc.1
  case cap =>
    rw [CapWhen, hhlen, hf]
    simp only [gridBody_config, gridBody_imw, gridBody_imh]
    omega
  case range =>
    rw [RangeWhen, hccol, hcrow, hcols, hrows]
    omega

/-- Settles O40: the run is that many rounds of the scan, and the cell's number is its row times the columns, plus its
column. -/
theorem scanPositionCountsTheDigits : Obligations.ScanPositionCountsTheDigits := by
  intro s k he hl hc hk
  have hf := probec_rounds_frame k (gridBody s)
  obtain ⟨hcols, hrows, hhlen, hccol, hcrow, -⟩ := scanAt_probec_rounds hl hc hk
  have hrun : runSteps (k + 1) (s.withScript (.writeReg 0 8#32 :: List.replicate k (.writeReg 0 9#32))) =
      .next ((repeatBody probecBody k (gridBody s)).withScript []) := by
    rw [runSteps_succ_of_next (step_withScript_cmd (w := 8#32) (decode_encode .grid) _ he hc),
      ← List.append_nil (List.replicate ..)]
    refine runSteps_replicate_cmd (w := 9#32) (decode_encode .probec) [] fun j hj =>
      ⟨?_, clean_probec_rounds hl hc (hj.trans_le hk)⟩
    exact (congrArg Status.err (repeatBody_keeps (·.status) probecBody probecBody_status j (gridBody s))).trans he
  generalize repeatBody probecBody k (gridBody s) = t at hf hcols hrows hhlen hccol hcrow hrun
  have hstatus : t.status = s.status := by rw [hf]; rfl
  have hposition : t.crow.toNat * t.cols.toNat + t.ccol.toNat = k := by
    rw [hcols, hccol, hcrow, mul_comm, Nat.div_add_mod]
  have hinRow : 0 < t.cols.toNat → t.ccol.toNat < t.cols.toNat := by
    rw [hccol, hcols]
    exact Nat.mod_lt k
  have hatEnd : 0 < k → k = t.cols.toNat * t.rows.toNat → t.ccol.toNat = 0 ∧ t.crow = t.rows := by
    rw [hcols, hrows]
    intro h0 hlast
    have hpos : 0 < s.gridCols := Nat.pos_of_mul_pos_right (hlast ▸ h0)
    refine ⟨by rw [hccol, hlast, Nat.mul_mod_right], BitVec.eq_of_toNat_eq ?_⟩
    rw [hcrow, hrows, hlast, Nat.mul_div_cancel_left _ hpos]
  exact ⟨_, hrun, hstatus, hhlen, hposition, hinRow, hatEnd⟩

/-! ## A drawn cell at the six probes (R94) -/

/-- A pixel of the cell is covered by the segments whose flag is set and whose condition, in the form `pb` to `ph`,
holds there. -/
theorem covered_eq {n w u v : Nat} {pb ps pv ph : Prop} [Decidable pb] [Decidable ps] [Decidable pv] [Decidable ph]
    (q : Quad) (hu : u < n) (hv : v < n) (hb : u - v + (v - u) ≤ w - 1 ↔ pb)
    (hs : u + v - n + (n - (u + v)) ≤ w - 1 ↔ ps) (hver : u ≤ w - 1 ↔ pv) (hhor : v ≤ w - 1 ↔ ph) :
    covered q n w u v = (q.backslash && decide pb || q.slash && decide ps || q.vertical && decide pv ||
      q.horizontal && decide ph) := by
  simp [covered, coverBackslash, coverSlash, coverVertical, coverHorizontal, inCell, absDiff, hu, hv, hb, hs, hver, hhor]

section Probes
variable {n w : Nat} (hn : 2 ≤ n) (hw : 1 ≤ w) (q : Quad)
include hn hw

theorem covered_topLeft : covered q n w 1 1 = (q.backslash && decide True || q.slash && decide (n ≤ w + 1) ||
    q.vertical && decide (2 ≤ w) || q.horizontal && decide (2 ≤ w)) := by
  refine covered_eq q ?_ ?_ (iff_true_intro ?_) ?_ ?_ ?_ <;> omega

theorem covered_bottomRight : covered q n w (n - 1) (n - 1) = (q.backslash && decide True ||
    q.slash && decide (n ≤ w + 1) || q.vertical && decide (n ≤ w) || q.horizontal && decide (n ≤ w)) := by
  refine covered_eq q ?_ ?_ (iff_true_intro ?_) ?_ ?_ ?_ <;> omega

theorem covered_topRight : covered q n w (n - 1) 1 = (q.backslash && decide (n ≤ w + 1) || q.slash && decide True ||
    q.vertical && decide (n ≤ w) || q.horizontal && decide (2 ≤ w)) := by
  refine covered_eq q ?_ ?_ ?_ (iff_true_intro ?_) ?_ ?_ <;> omega

theorem covered_bottomLeft : covered q n w 1 (n - 1) = (q.backslash && decide (n ≤ w + 1) || q.slash && decide True ||
    q.vertical && decide (2 ≤ w) || q.horizontal && decide (n ≤ w)) := by
  refine covered_eq q ?_ ?_ ?_ (iff_true_intro ?_) ?_ ?_ <;> omega

theorem covered_leftMiddle : covered q n w 1 (n / 2) = (q.backslash && decide (n / 2 ≤ w) ||
    q.slash && decide (n - n / 2 ≤ w) || q.vertical && decide (2 ≤ w) || q.horizontal && decide (n / 2 ≤ w - 1)) := by
  refine covered_eq q ?_ ?_ ?_ ?_ ?_ ?_ <;> omega

theorem covered_topMiddle : covered q n w (n / 2) 1 = (q.backslash && decide (n / 2 ≤ w) ||
    q.slash && decide (n - n / 2 ≤ w) || q.vertical && decide (n / 2 ≤ w - 1) || q.horizontal && decide (2 ≤ w)) := by
  refine covered_eq q ?_ ?_ ?_ ?_ ?_ ?_ <;> omega

/-- The four formulas of R94 are the six probes' pixels of the drawn cell, put together as R90 puts the probes. -/
theorem probedFlags_eq_covered : probedFlags n w q =
    ⟨covered q n w 1 1 && covered q n w (n - 1) (n - 1), covered q n w (n - 1) 1 && covered q n w 1 (n - 1),
      covered q n w 1 (n / 2), covered q n w (n / 2) 1⟩ := by
  rw [covered_topLeft hn hw, covered_bottomRight hn hw, covered_topRight hn hw, covered_bottomLeft hn hw,
    covered_leftMiddle hn hw, covered_topMiddle hn hw]
  simp only [probedFlags, decide_true, Bool.and_true, Bool.and_or_distrib_right, Bool.or_assoc, Bool.or_left_comm]

end Probes

/-- Settles O41: each probe reads a pixel of the cell, and that pixel is lit iff the cell's drawing covers it. -/
theorem drawnCellIsProbedByTheFormula : Obligations.DrawnCellIsProbedByTheFormula := by
  intro s c r n w q hcell hn hw himw himh hpix
  have hlit : ∀ u v, u < n → v < n → s.lit (c * n + u) (r * n + v) = covered q n w u v := by
    intro u v hu hv
    rw [Nat.succ_mul] at himw himh
    exact lit_of_white_or_black (by omega) (by omega) (hpix u v hu hv)
  have hlast : ∀ a, a * n + n - 1 = a * n + (n - 1) := fun a => Nat.add_sub_assoc (by omega) _
  have h1 : 1 < n := hn
  have hh : n / 2 < n := by omega
  have hl : n - 1 < n := by omega
  rw [probedFlags_eq_covered hn hw, State.probeCell, hcell, hlast, hlast, hlit _ _ h1 h1, hlit _ _ hl hl, hlit _ _ hl h1,
    hlit _ _ h1 hl, hlit _ _ h1 hh, hlit _ _ hh h1]

/-! ## The formulas in the regular regime (R95) and at line width 1 (R97 a) -/

theorem probedFlags_of_regular {n w : Nat} (h : RegularRegime n w) (q : Quad) :
    probedFlags n w q = ⟨q.backslash, q.slash || (q.vertical && q.horizontal), q.vertical, q.horizontal⟩ := by
  obtain ⟨hw, hn⟩ := h
  have he : decide (2 ≤ w) = true := decide_eq_true hw
  have ha : decide (n ≤ w + 1) = false := decide_eq_false (by omega)
  have hf : decide (n ≤ w) = false := decide_eq_false (by omega)
  have hg : decide (n / 2 ≤ w) = false := decide_eq_false (by omega)
  have hk : decide (n - n / 2 ≤ w) = false := decide_eq_false (by omega)
  have hj : decide (n / 2 ≤ w - 1) = false := decide_eq_false (by omega)
  obtain ⟨B, S, V, H⟩ := q
  simp only [probedFlags, he, ha, hf, hg, hk, hj]
  revert B S V H
  decide

theorem probedFlags_of_width_one {n : Nat} (h : 4 ≤ n) (q : Quad) :
    probedFlags n 1 q = ⟨q.backslash, q.slash, false, false⟩ := by
  have he : decide (2 ≤ 1) = false := rfl
  have ha : decide (n ≤ 1 + 1) = false := decide_eq_false (by omega)
  have hf : decide (n ≤ 1) = false := decide_eq_false (by omega)
  have hg : decide (n / 2 ≤ 1) = false := decide_eq_false (by omega)
  have hk : decide (n - n / 2 ≤ 1) = false := decide_eq_false (by omega)
  have hj : decide (n / 2 ≤ 1 - 1) = false := decide_eq_false (by omega)
  simp only [probedFlags, he, ha, hf, hg, hk, hj, Bool.and_false, Bool.or_false, Bool.and_self]

theorem probedFlags_of_regular_digit {n w : Nat} (h : RegularRegime n w) (d : Digit) :
    probedFlags n w (flagsOf d) = flagsOf (survivor d) := by
  rw [probedFlags_of_regular h]
  revert d
  decide

/-- Settles O42: for the converse, the digit 8 has no vertical flag, and its backslash lights the vertical's probe unless
the cell is as large as the regular regime asks. -/
theorem regularRegimeClosedForm : Obligations.RegularRegimeClosedForm := by
  refine ⟨fun n w q h => probedFlags_of_regular h q, fun n w d h => probedFlags_of_regular_digit h d,
    fun n w hn hw h => ⟨hw, ?_⟩⟩
  have hdark : decide (n / 2 ≤ w) = false := by
    simpa [probedFlags, flagsOf, survivor] using congrArg Quad.vertical (h 8#4)
  have := of_decide_eq_false hdark
  omega

/-! ## DEC of the image ENC made -/

theorem flagsOf_eq_digitToBits (d : Digit) : flagsOf d = digitToBits d := rfl

theorem flagsOf_injective {d d' : Digit} (h : flagsOf d = flagsOf d') : d = d' := by
  rw [← bitsToDigit_digitToBits d, ← bitsToDigit_digitToBits d']
  exact congrArg bitsToDigit h

/-- An image of whole cells has as many columns as cells. -/
theorem ceilDiv_mul {m n : Nat} (hn : 0 < n) : ceilDiv (m * n) n = m := by
  rw [ceilDiv, Nat.add_sub_assoc hn, mul_comm, Nat.mul_add_div hn, Nat.div_eq_of_lt (by omega), Nat.add_zero]

section RoundTrip
variable {s : State} (hl : s.config.Legal) (hc : Clean .enc s)

include hc in
theorem gridRows_encBody : (encBody s).gridRows = 1 := by
  rw [State.gridRows, encBody_imh, encBody_cell]
  simpa using ceilDiv_mul (m := 1) (cell_pos_of_clean_enc hc)

include hl hc

theorem gridCols_encBody : (encBody s).gridCols = max 1 (2 * s.blen.toNat) := by
  rw [State.gridCols, toNat_encBody_imw hl hc, encBody_cell, ceilDiv_mul (cell_pos_of_clean_enc hc)]

theorem clean_dec_encBody : Clean .dec (encBody s) := by
  obtain ⟨hb, hw, hh⟩ := fits_of_clean_enc hc
  have hgrid : (encBody s).gridCols * (encBody s).gridRows ≤ s.config.maxDigits := by
    rw [gridCols_encBody hl hc, gridRows_encBody hc]
    obtain ⟨-, h2, -⟩ := hl
    unfold Config.maxBytes at hb
    omega
  refine ⟨fun h => hc.1 (.inl ((encBody_cell s).symm.trans h)), ?cap, id⟩
  case cap =>
    rw [← toNat_encBody_imw hl hc] at hw
    rw [← encBody_imh] at hh
    rw [CapWhen, show (encBody s).config = s.config from bodyOf_config .enc s]
    exact not_or.2 ⟨hw.not_gt, not_or.2 ⟨hh.not_gt, hgrid.not_gt⟩⟩

/-- DEC of ENC's image ends with the scan of ENC's one row. -/
theorem scanAt_roundTrip : ScanAt (encBody s) (max 1 (2 * s.blen.toNat)) (decBody (encBody s)) := by
  have h := scanAt_decBody ((bodyOf_config .enc s).symm ▸ hl) (clean_dec_encBody hl hc)
  rwa [gridCols_encBody hl hc, gridRows_encBody hc, Nat.mul_one] at h

theorem toNat_roundTrip_hlen : (decBody (encBody s)).hlen.toNat = max 1 (2 * s.blen.toNat) :=
  (scanAt_roundTrip hl hc).hlen

/-- DEC finds one digit in each cell of ENC's one row. -/
theorem digitAt_roundTrip {k : Nat} (hk : k < max 1 (2 * s.blen.toNat)) :
    (decBody (encBody s)).mem.digitAt k = bitsToDigit ((encBody s).probeCell k 0) := by
  rw [(scanAt_roundTrip hl hc).found k hk, gridCols_encBody hl hc, Nat.mod_eq_of_lt hk, Nat.div_eq_of_lt hk]

/-- The cell of digit `k` shows the digit's drawing and nothing else, so it is probed by the formulas. -/
theorem probeCell_encBody (h2 : 2 ≤ s.cell.toNat) {k : Nat} (hk : k < 2 * s.blen.toNat) :
    (encBody s).probeCell k 0 =
      probedFlags s.cell.toNat s.lw.toNat (flagsOf ((encBody s).mem.digitAt k)) := by
  have hcell : (encBody s).cell.toNat = s.cell.toNat := by rw [encBody_cell]
  have himw : (k + 1) * s.cell.toNat ≤ (encBody s).imw.toNat := by
    rw [toNat_encBody_imw hl hc]
    exact Nat.mul_le_mul_right _ (by omega)
  have himh : (0 + 1) * s.cell.toNat ≤ (encBody s).imh.toNat := by rw [encBody_imh, Nat.zero_add, Nat.one_mul]
  have hw : 1 ≤ s.lw.toNat := Nat.pos_of_ne_zero fun h => hc.1 (.inr (BitVec.eq_of_toNat_eq h))
  refine drawnCellIsProbedByTheFormula _ k 0 _ _ _ hcell h2 hw himw himh fun u v hu hv => ?_
  have hin : k * s.cell.toNat + u < (encBody s).imw.toNat ∧ 0 * s.cell.toNat + v < (encBody s).imh.toNat := by
    rw [Nat.succ_mul] at himw himh
    omega
  obtain ⟨hdiv, hmod⟩ := (Nat.div_mod_unique (a := k * s.cell.toNat + u) (c := u) (d := k) (Nat.zero_lt_of_lt hu)).2
    ⟨by rw [mul_comm, add_comm], hu⟩
  have hb : 0 < s.blen.toNat := by omega
  rw [pixelAt_encBody hl hc, if_pos hin, hdiv, hmod, flagsOf_eq_digitToBits, Nat.zero_mul, Nat.zero_add]
  simp only [covered_iff, hu, hv, hb, true_and]
  rfl

theorem flagsOf_roundTrip (h2 : 2 ≤ s.cell.toNat) {k : Nat} (hk : k < 2 * s.blen.toNat) :
    flagsOf ((decBody (encBody s)).mem.digitAt k) =
      probedFlags s.cell.toNat s.lw.toNat (flagsOf ((encBody s).mem.digitAt k)) := by
  rw [digitAt_roundTrip hl hc (by omega), flagsOf_eq_digitToBits, digitToBits_bitsToDigit, probeCell_encBody hl hc h2 hk]

/-- In the regular regime DEC finds `T` of the digit drawn. -/
theorem digitAt_roundTrip_of_regular (hr : RegularRegime s.cell.toNat s.lw.toNat) {k : Nat}
    (hk : k < 2 * s.blen.toNat) :
    (decBody (encBody s)).mem.digitAt k = survivor ((encBody s).mem.digitAt k) :=
  flagsOf_injective ((flagsOf_roundTrip hl hc (by omega) hk).trans (probedFlags_of_regular_digit hr _))

theorem byteAt_roundTrip_of_regular (hr : RegularRegime s.cell.toNat s.lw.toNat) {k : Nat} (hk : k < s.blen.toNat) :
    (decBody (encBody s)).mem.byteAt k =
      joinDigits (survivor (hiDigit (s.mem.byteAt k))) (survivor (loDigit (s.mem.byteAt k))) := by
  rw [byteAt_decBody _ (by rw [toNat_roundTrip_hlen hl hc]; omega), digitAt_roundTrip_of_regular hl hc hr (by omega),
    digitAt_roundTrip_of_regular hl hc hr (by omega), digitAt_encBody, digitAt_encBody, digitAt_expand_even _ hk,
    digitAt_expand_odd _ hk]

end RoundTrip

/-- With no error latched, ENC and then DEC run their bodies. -/
theorem exec_dec_encBody {s : State} (he : s.status.err = false) (hl : s.config.Legal) (hc : Clean .enc s) :
    exec .dec (encBody s) = .next (decBody (encBody s)) :=
  exec_eq_bodyOf ((bodyOf_err .enc s).trans he) (clean_dec_encBody hl hc)

theorem eq_bodies_of_roundTrip {s t u : State} (he : s.status.err = false) (hl : s.config.Legal) (hc : Clean .enc s)
    (ht : exec .enc s = .next t) (hu : exec .dec t = .next u) : t = encBody s ∧ u = decBody (encBody s) := by
  obtain rfl : t = encBody s := eq_bodyOf_of_exec he hc ht
  exact ⟨rfl, Host.Outcome.next.inj (hu.symm.trans (exec_dec_encBody he hl hc))⟩

/-- Settles O43: DEC's check passes on ENC's image, whose cells are those of the digits drawn. -/
theorem encodeThenDecodeMapsEveryDigit : Obligations.EncodeThenDecodeMapsEveryDigit := by
  intro s t u he hl hc hb h2 ht hu
  obtain ⟨rfl, rfl⟩ := eq_bodies_of_roundTrip he hl hc ht hu
  have hhlen := toNat_encBody_hlen hl hc
  refine ⟨?err, BitVec.eq_of_toNat_eq ?hlen, fun k hk => flagsOf_roundTrip hl hc h2 (hhlen ▸ hk)⟩
  case err => rw [decBody_status, encBody_status]; exact he
  case hlen => rw [toNat_roundTrip_hlen hl hc, hhlen]; omega

theorem flagsOf_and_upper (d : Digit) :
    flagsOf (d &&& 0b1100#4) = ⟨(flagsOf d).backslash, (flagsOf d).slash, false, false⟩ := by
  revert d
  decide

/-- Settles O45: the formulas at line width 1 keep the two upper flags, which is to clear the digit's two low bits. -/
theorem widthOneLosesTheEdges : Obligations.WidthOneLosesTheEdges := by
  intro s t u he hl hc hb hlw h4 ht hu k hk
  obtain ⟨rfl, rfl⟩ := eq_bodies_of_roundTrip he hl hc ht hu
  rw [toNat_encBody_hlen hl hc] at hk
  refine flagsOf_injective ((flagsOf_roundTrip hl hc (by omega) hk).trans ?_)
  rw [hlw, flagsOf_and_upper]
  exact probedFlags_of_width_one h4 _

theorem survivor_eq_self_iff (d : Digit) : survivor d = d ↔ ¬Lost d := by
  revert d; decide

/-- A byte comes back unchanged iff both its nibbles do (R96). -/
theorem joinDigits_survivor_eq_iff (b : Byte) : joinDigits (survivor (hiDigit b)) (survivor (loDigit b)) = b ↔
    ¬Lost (hiDigit b) ∧ ¬Lost (loDigit b) := by
  rw [← survivor_eq_self_iff, ← survivor_eq_self_iff]
  constructor
  · intro h
    have hhi := congrArg hiDigit h
    have hlo := congrArg loDigit h
    rw [hiDigit_join] at hhi
    rw [loDigit_join] at hlo
    exact ⟨hhi, hlo⟩
  · rintro ⟨hhi, hlo⟩
    rw [hhi, hlo, joinDigits_hi_lo]

/-- Settles O44: each byte comes back with `T` on both nibbles; the number of bytes that survive is counted. -/
theorem roundTripInTheRegularRegime : Obligations.RoundTripInTheRegularRegime := by
  intro s he hl hc hb hr
  have hhlen : (decBody (encBody s)).hlen.toNat = 2 * s.blen.toNat := by rw [toNat_roundTrip_hlen hl hc]; omega
  refine ⟨encBody s, decBody (encBody s), exec_eq_bodyOf he hc, exec_dec_encBody he hl hc, ?blen, hhlen, ?odd, ?err,
    fun k hk => ?bytes, forall₂_congr fun k hk => ?unchanged, by decide +kernel⟩
  case blen => rw [toNat_decBody_blen, hhlen]; omega
  case odd => rw [decBody_status, hhlen, oddFlag]; simp
  case err => rw [decBody_status, encBody_status]; exact he
  case bytes =>
    rw [byteAt_roundTrip_of_regular hl hc hr hk, toNat_joinDigits, ofNat_div_eq_hiDigit, ofNat_mod_eq_loDigit]
  case unchanged =>
    rw [byteAt_roundTrip_of_regular hl hc hr hk, joinDigits_survivor_eq_iff, ofNat_div_eq_hiDigit, ofNat_mod_eq_loDigit]

/-! ## The empty input, and one byte 0x00 (R98) -/

/-- ENC's image is black when every digit is 0, as when there is none. -/
theorem black_encBody {s : State} (hl : s.config.Legal) (hc : Clean .enc s)
    (h0 : ∀ k < 2 * s.blen.toNat, (encBody s).mem.digitAt k = 0#4) (x y : Nat) (hx : x < (encBody s).imw.toNat)
    (hy : y < (encBody s).imh.toNat) : (encBody s).mem.pixelAt x y = Pixel.black := by
  have hno : ∀ u v, ¬GlyphWhite 0#4 s.cell.toNat s.lw.toNat u v := by simp [GlyphWhite]
  rw [pixelAt_encBody hl hc, if_pos ⟨hx, hy⟩, if_neg]
  rintro ⟨hb, hwhite⟩
  rw [h0 _ ((cell_lt_digits_iff hl hc hx).2 hb)] at hwhite
  exact hno _ _ hwhite

/-- DEC of a black image finds the digit 0 in every cell. -/
theorem digitAt_roundTrip_of_zero {s : State} (hl : s.config.Legal) (hc : Clean .enc s)
    (h0 : ∀ k < 2 * s.blen.toNat, (encBody s).mem.digitAt k = 0#4) {k : Nat} (hk : k < max 1 (2 * s.blen.toNat)) :
    (decBody (encBody s)).mem.digitAt k = 0#4 := by
  rw [digitAt_roundTrip hl hc hk, probeCell_of_dark (lit_of_black_image (black_encBody hl hc h0))]
  rfl

theorem digitAt_encBody_of_zero_bytes {s : State} (h0 : ∀ k < s.blen.toNat, s.mem.byteAt k = 0#8) :
    ∀ k < 2 * s.blen.toNat, (encBody s).mem.digitAt k = 0#4 := by
  intro k hk
  rw [digitAt_encBody]
  rcases Nat.even_or_odd' k with ⟨j, rfl | rfl⟩
  · rw [digitAt_expand_even _ (by omega), h0 j (by omega)]; rfl
  · rw [digitAt_expand_odd _ (by omega), h0 j (by omega)]; rfl

/-- Settles O47: in both cases the image is black, of one cell or of two, and every digit DEC finds is 0. -/
theorem emptyInputRoundTrip : Obligations.EmptyInputRoundTrip := by
  intro s he hl hc
  have hgrid := gridCols_encBody hl hc
  have hhlen := toNat_roundTrip_hlen hl hc
  refine ⟨fun hb => ?noByte, fun hb hzero => ?oneByte⟩
  case noByte =>
    have hb0 : s.blen.toNat = 0 := by rw [hb]; rfl
    have hzeros : ∀ k < 2 * s.blen.toNat, (encBody s).mem.digitAt k = 0#4 := fun k hk => by omega
    have hdigit := digitAt_roundTrip_of_zero hl hc hzeros (k := 0) (by omega)
    rw [hb0] at hgrid hhlen
    have himw : (encBody s).imw = s.cell :=
      BitVec.eq_of_toNat_eq ((toNat_encBody_imw hl hc).trans (by rw [hb0]; exact Nat.one_mul _))
    refine ⟨encBody s, decBody (encBody s), exec_eq_bodyOf he hc, exec_dec_encBody he hl hc, ?empty, ?hlen, ?cols,
      encBody_rows s, himw, encBody_imh s, fun x y hx hy => ?black, ?gridCols, ?gridRows, BitVec.eq_of_toNat_eq hhlen,
      hdigit, BitVec.eq_of_toNat_eq ?blen, ?status⟩
    case empty => rw [encBody_status, encBody_hlen, hb0]; rfl
    case hlen => rw [encBody_hlen, hb0]; rfl
    case cols => rw [encBody_cols, hb0]; rfl
    case black => exact black_encBody hl hc hzeros x y (himw ▸ hx) (encBody_imh s ▸ hy)
    case gridCols => rw [decBody_cols, hgrid]; rfl
    case gridRows => rw [decBody_rows, gridRows_encBody hc]; rfl
    case blen => rw [toNat_decBody_blen, hhlen]; rfl
    case status => rw [decBody_status, hhlen]; rfl
  case oneByte =>
    have hb1 : s.blen.toNat = 1 := by rw [hb]; rfl
    have hzeros := digitAt_encBody_of_zero_bytes (s := s) fun k hk => by
      obtain rfl : k = 0 := by omega
      exact hzero
    have hdigit : ∀ k < 2, (decBody (encBody s)).mem.digitAt k = 0#4 := fun k hk =>
      digitAt_roundTrip_of_zero hl hc hzeros (by omega)
    rw [hb1] at hhlen
    refine ⟨encBody s, decBody (encBody s), exec_eq_bodyOf he hc, exec_dec_encBody he hl hc, ?empty, ?cols,
      black_encBody hl hc hzeros, BitVec.eq_of_toNat_eq ?blen, ?byte, ?odd⟩
    case empty => rw [encBody_status, encBody_hlen, hb1]; rfl
    case cols => rw [encBody_cols, hb1]; rfl
    case blen => rw [toNat_decBody_blen, hhlen]; rfl
    case byte =>
      rw [byteAt_decBody _ (by rw [hhlen]; decide), hdigit _ (by decide), hdigit _ (by decide)]
      rfl
    case odd => rw [decBody_status, hhlen]; rfl

end Sys2Proof.Machine

/-! # Proofs: housekeeping, the cursor's moves, and the composite commands by their parts (44_control.md) -/

namespace Sys2Proof.Machine

/-! ## Housekeeping (R100 to R102) -/

/-- Settles O16: the registers' reset values are the ones a reset gives, and the buffers are the state's own. -/
theorem softResetEqualsReset : Obligations.SoftResetEqualsReset := fun s => ⟨exec_srst s, exec_srst s⟩

/-- Settles O17: CLR is the release of the latch, whatever the latch holds. -/
theorem clearReleasesTheErrorAndNothingElse : Obligations.ClearReleasesTheErrorAndNothingElse := exec_clr

/-- Settles O18: a refused NOP changes nothing, and an accepted one has no check and an empty body. -/
theorem nopChangesNothing : Obligations.NopChangesNothing := by
  intro s
  cases he : s.status.err with
  | true => exact (exec_eq_command (by decide) (by decide) s).trans (command_of_err he)
  | false => exact exec_of_clean he rfl

/-! ## The cursor (R103, R22) -/

/-- ENC's cursor runs on through the digits: it ends in the column after the last one (R78). -/
theorem encBody_ccol {s : State} (hl : s.config.Legal) (hc : Clean .enc s) : (encBody s).ccol = (encBody s).hlen := by
  obtain ⟨hccol, -⟩ := encBody_rounds hl hc
  exact BitVec.eq_of_toNat_eq (hccol.trans (toNat_encBody_hlen hl hc).symm)

/-- DEC's cursor as registers hold it: below the grid, or where GRID put it if the grid has no column (log entry 12). -/
theorem decBody_ccol_crow {s : State} (hl : s.config.Legal) (hc : Clean .dec s) :
    (decBody s).ccol = 0#32 ∧ (decBody s).crow = if (decBody s).cols = 0#32 then 0#32 else (decBody s).rows := by
  obtain ⟨hccol, hcrow⟩ := cursor_decBody hl hc
  have hcols : (decBody s).cols = 0#32 ↔ s.gridCols = 0 := by
    rw [← (scanAt_decBody hl hc).cols]
    exact BitVec.toNat_eq
  refine ⟨BitVec.eq_of_toNat_eq hccol, BitVec.eq_of_toNat_eq ?_⟩
  rw [hcrow, apply_ite BitVec.toNat, (scanAt_decBody hl hc).rows]
  simp only [hcols, BitVec.toNat_zero]

/-- DRAWC's cursor stands on a digit, so one column right is still a number CCOL can hold. -/
theorem toNat_drawcBody_ccol {s : State} (hc : Clean .drawc s) : (drawcBody s).ccol.toNat = s.ccol.toNat + 1 := by
  obtain ⟨-, -, hrange⟩ := hc
  exact toNat_reg (Nat.lt_of_le_of_lt (Nat.lt_of_not_le hrange) s.hlen.isLt)

/-- PROBEC's cursor stands in the grid, so one cell on, in raster order, fits CCOL and CROW. -/
theorem probecBody_ccol_crow {s : State} (hc : Clean .probec s) :
    (s.ccol.toNat + 1 < s.cols.toNat →
      (probecBody s).ccol.toNat = s.ccol.toNat + 1 ∧ (probecBody s).crow = s.crow) ∧
    (¬s.ccol.toNat + 1 < s.cols.toNat →
      (probecBody s).ccol = 0#32 ∧ (probecBody s).crow.toNat = s.crow.toNat + 1) := by
  obtain ⟨-, -, hrange⟩ := hc
  obtain ⟨-, hrow⟩ : s.ccol.toNat < s.cols.toNat ∧ s.crow.toNat < s.rows.toNat := by
    simpa only [RangeWhen, not_or, not_le] using hrange
  rw [probecBody_ccol, probecBody_crow]
  refine ⟨fun h => ?right, fun h => ?nextRow⟩
  case right => rw [if_pos h, if_pos h, reg_toNat]; exact ⟨toNat_reg (h.trans s.cols.isLt), rfl⟩
  case nextRow => rw [if_neg h, if_neg h]; exact ⟨rfl, toNat_reg (Nat.lt_of_le_of_lt hrow s.rows.isLt)⟩

/-- Settles O59: a refusal and a latch leave the cursor, so a move is a body's, and each body's move is its own. -/
theorem cursorMovesOnlyAsListed : Obligations.CursorMovesOnlyAsListed := by
  intro i s t ht hmove hl
  rcases exec_cases ht with ⟨-, -, -, rfl⟩ | ⟨-, -, -, e, -, rfl⟩ | ⟨-, hck, rfl⟩
  · simp at hmove
  · simp at hmove
  have hc := (checkOf_eq_none_iff i s).1 hck
  cases i with
  | layout => exact .inl ⟨.inl rfl, rfl, rfl⟩
  | grid => exact .inl ⟨.inr (.inl rfl), rfl, rfl⟩
  | srst => exact .inl ⟨.inr (.inr rfl), rfl, rfl⟩
  | enc => exact .inr (.inl ⟨rfl, encBody_ccol hl hc, encBody_crow s⟩)
  | dec => exact .inr (.inr (.inl ⟨rfl, decBody_ccol_crow hl hc⟩))
  | drawc => exact .inr (.inr (.inr (.inl ⟨rfl, toNat_drawcBody_ccol hc, rfl⟩)))
  | probec => exact .inr (.inr (.inr (.inr ⟨rfl, probecBody_ccol_crow hc⟩)))
  | nop | d2b | b2d | b2h | h2b | clr => simp [bodyOf, nopBody] at hmove

/-! ## A command as the host issues it: alone, or first of a run (R141) -/

theorem exec_withScript_of_clean {i : Instr} (as : List HostAction) {s : State} (he : s.status.err = false)
    (hc : Clean i s) : exec i (s.withScript as) = .next ((bodyOf i s).withScript as) := by
  rw [← bodyOf_withScript]
  exact exec_eq_bodyOf (s := s.withScript as) he ((clean_withScript i as s).2 hc)

theorem runSteps_succ_cmd {w : Word} {i : Instr} (hw : decode w = .ok i) (rest : List HostAction) {s : State}
    (he : s.status.err = false) (hc : Clean i s) (n : Nat) :
    runSteps (n + 1) (s.withScript (.writeReg 0 w :: rest)) = runSteps n ((bodyOf i s).withScript rest) :=
  runSteps_succ_of_next (step_withScript_cmd hw rest he hc) n

/-! ## ENC by its parts (R104, R78) -/

/-- ENC checks BLEN as B2H does. -/
theorem clean_b2h_of_clean_enc {s : State} (hc : Clean .enc s) : Clean .b2h s :=
  ⟨id, Nat.not_lt.2 (fits_of_clean_enc hc).1, id⟩

section EncParts
variable {s : State} (hl : s.config.Legal) (hc : Clean .enc s)
include hl hc

/-- B2H's digits fit HB, since the bytes fit BB. -/
theorem b2hBody_hlen_le_maxDigits : (b2hBody s).hlen.toNat ≤ s.config.maxDigits := by
  have hb := (fits_of_clean_enc hc).1
  rw [toNat_hlen_b2hBody hl hc]
  unfold Config.maxBytes at hb
  omega

/-- ENC checks the image that LAYOUT makes of B2H's digits. -/
theorem clean_layout_b2hBody : Clean .layout (b2hBody s) := by
  obtain ⟨-, hw, hh⟩ := fits_of_clean_enc hc
  refine ⟨fun h => hc.1 (.inl h), ?_, id⟩
  rw [← toNat_hlen_b2hBody hl hc] at hw
  rintro (h | h | h)
  · exact h.not_ge (b2hBody_hlen_le_maxDigits hl hc)
  · exact h.not_ge hw
  · exact h.not_ge hh

/-- DRAWC raises nothing on LAYOUT's image while digits are left (R78). -/
theorem clean_drawc_rounds {k : Nat} (hk : k < 2 * s.blen.toNat) :
    Clean .drawc (repeatBody drawcBody k (layoutBody (b2hBody s))) := by
  obtain ⟨-, hw, hh⟩ := fits_of_clean_enc hc
  obtain ⟨hccol, -⟩ := drawc_rounds k (layoutBody (b2hBody s)) rfl (cell_pos_of_clean_enc hc)
    (hk.trans (two_mul_blen_lt_of_clean_enc hl hc))
  have hf := drawc_rounds_frame k (layoutBody (b2hBody s))
  have himw := toNat_encBody_imw hl hc
  rw [encBody_imw] at himw
  generalize repeatBody drawcBody k (layoutBody (b2hBody s)) = t at hccol hf ⊢
  refine ⟨?cfg, ?cap, ?range⟩
  case cfg => rw [hf]; exact hc.1
  case cap =>
    rw [hf]
    rintro (h | h | h)
    · exact h.not_ge (b2hBody_hlen_le_maxDigits hl hc)
    · exact h.not_ge (himw ▸ hw)
    · exact h.not_ge ((toNat_reg_le _).trans hh)
  case range =>
    rw [RangeWhen, hccol, hf]
    exact ((toNat_hlen_b2hBody hl hc).symm ▸ hk).not_ge

/-- The host's DRAWC for each digit, after LAYOUT, are ENC's rounds. -/
theorem runSteps_drawc_rounds (he : s.status.err = false) :
    runSteps (2 * s.blen.toNat) ((layoutBody (b2hBody s)).withScript
      (List.replicate (2 * s.blen.toNat) (.writeReg 0 6#32))) = .next ((encBody s).withScript []) := by
  rw [← List.append_nil (List.replicate ..)]
  refine runSteps_replicate_cmd (decode_encode .drawc) [] fun k hk => ⟨?_, clean_drawc_rounds hl hc hk⟩
  exact (congrArg Status.err (repeatBody_keeps (·.status) drawcBody drawcBody_status k _)).trans he

end EncParts

/-- Settles O31: no part of the run raises, so each step runs its body, and the bodies in order are ENC's. -/
theorem encodeEqualsItsParts : Obligations.EncodeEqualsItsParts := by
  intro s he hl hc
  rw [show 2 + 2 * s.blen.toNat = 2 * s.blen.toNat + 1 + 1 by omega]
  calc runSteps (2 * s.blen.toNat + 1 + 1) (s.withScript (.writeReg 0 3#32 :: .writeReg 0 5#32 ::
        List.replicate (2 * s.blen.toNat) (.writeReg 0 6#32)))
    _ = runSteps (2 * s.blen.toNat + 1) ((b2hBody s).withScript (.writeReg 0 5#32 :: _)) :=
      runSteps_succ_cmd (decode_encode .b2h) _ he (clean_b2h_of_clean_enc hc) _
    _ = runSteps (2 * s.blen.toNat) ((layoutBody (b2hBody s)).withScript _) :=
      runSteps_succ_cmd (s := b2hBody s) (decode_encode .layout) _ he (clean_layout_b2hBody hl hc) _
    _ = .next ((encBody s).withScript []) := runSteps_drawc_rounds hl hc he
    _ = exec .enc (s.withScript []) := (exec_withScript_of_clean [] he hc).symm

/-! ## DEC by its parts (R104, R93) -/

/-- A scan latches no error. -/
theorem probec_rounds_err {s : State} (he : s.status.err = false) (k : Nat) :
    (repeatBody probecBody k (gridBody s)).status.err = false :=
  (congrArg Status.err (repeatBody_keeps (·.status) probecBody probecBody_status k (gridBody s))).trans he

section DecParts
variable {s : State} (hl : s.config.Legal) (hc : Clean .dec s)
include hl hc

/-- The host's PROBEC for each cell, after GRID, are DEC's rounds. -/
theorem runSteps_probec_rounds (he : s.status.err = false) (rest : List HostAction) :
    runSteps (s.gridCols * s.gridRows) ((gridBody s).withScript
      (List.replicate (s.gridCols * s.gridRows) (.writeReg 0 9#32) ++ rest)) =
      .next ((repeatBody probecBody (s.gridCols * s.gridRows) (gridBody s)).withScript rest) :=
  runSteps_replicate_cmd (decode_encode .probec) rest fun k hk => ⟨probec_rounds_err he k, clean_probec_rounds hl hc hk⟩

/-- The digits of a whole scan fit HB, since GRID checked the number of cells. -/
theorem clean_h2b_probec_rounds : Clean .h2b (repeatBody probecBody (s.gridCols * s.gridRows) (gridBody s)) := by
  obtain ⟨-, -, hfit⟩ := fits_of_clean_grid hc
  have hhlen := (scanAt_probec_rounds hl hc le_rfl).hlen
  have hf := probec_rounds_frame (s.gridCols * s.gridRows) (gridBody s)
  refine ⟨id, ?_, id⟩
  rw [CapWhen, hhlen, hf]
  exact hfit.not_gt

end DecParts

/-- Settles O39: no part of the run raises, so each step runs its body, and the bodies in order are DEC's. -/
theorem decodeEqualsItsParts : Obligations.DecodeEqualsItsParts := by
  intro s he hl hc
  calc runSteps (s.gridCols * s.gridRows + 2) (s.withScript (.writeReg 0 8#32 ::
        (List.replicate (s.gridCols * s.gridRows) (.writeReg 0 9#32) ++ [.writeReg 0 4#32])))
    _ = runSteps (s.gridCols * s.gridRows + 1) ((gridBody s).withScript (_ ++ [.writeReg 0 4#32])) :=
      runSteps_succ_cmd (i := .grid) (decode_encode .grid) _ he hc _
    _ = runSteps 1 ((repeatBody probecBody (s.gridCols * s.gridRows) (gridBody s)).withScript [.writeReg 0 4#32]) :=
      runSteps_add (runSteps_probec_rounds hl hc he _) 1
    _ = .next ((decBody s).withScript []) :=
      runSteps_succ_cmd (decode_encode .h2b) [] (probec_rounds_err he _) (clean_h2b_probec_rounds hl hc) 0
    _ = exec .dec (s.withScript []) := (exec_withScript_of_clean [] he hc).symm

end Sys2Proof.Machine

/-! # Proofs: errors — the acceptance test, what is raised, and the latch until its release (60_exceptions.md) -/

namespace Sys2Proof.Machine

/-! ## The acceptance test (R116) -/

/-- Settles O7: each of the eleven commands is a `command`, and a `command` is refused while an error is latched. -/
theorem latchedErrorRefusesCommands : Obligations.LatchedErrorRefusesCommands :=
  fun _ s hclr hsrst he => (exec_eq_command hclr hsrst s).trans (command_of_err he)

/-- An illegal word is refused like a command; a legal one that is no release word names one of the eleven commands
the latch refuses. -/
theorem writeCmd_of_latched {w : Word} (hw : ¬IsReleaseWord w) {s : State} (he : s.status.err = true) :
    s.writeCmd w = .next s := by
  cases hd : decode w with
  | error e => exact (writeCmd_of_error hd s).trans (accept_of_err he)
  | ok i =>
    have hwi : w = encode i := (decode_eq_ok_iff w i).1 hd
    have hclr : i ≠ .clr := by rintro rfl; exact hw (.inl hwi)
    have hsrst : i ≠ .srst := by rintro rfl; exact hw (.inr hwi)
    exact (writeCmd_of_ok hd s).trans (latchedErrorRefusesCommands i s hclr hsrst he)

theorem writeCmd_of_illegal {w : Word} (hw : ¬WellFormedWord w) {s : State} (he : s.status.err = false) :
    s.writeCmd w = .next (latched 1#3 s) := by
  obtain ⟨e, hd⟩ := (decode_eq_error_iff w).2 hw
  exact (writeCmd_of_error hd s).trans (accept_of_ok he)

/-- Settles O6: the release words and every legal word run their command, and the other two points are the lemmas
above. -/
theorem commandWriteFollowsTheAcceptanceOrder : Obligations.CommandWriteFollowsTheAcceptanceOrder := by
  intro s w
  refine ⟨?clr, ?srst, fun hw he => writeCmd_of_latched hw he,
    fun he hw => writeCmd_of_illegal hw he, fun _ _ hd => writeCmd_of_ok hd s⟩
  case clr => rintro rfl; exact writeCmd_of_ok (decode_encode .clr) s
  case srst => rintro rfl; exact writeCmd_of_ok (decode_encode .srst) s

/-! ## What a command raises, and what a raise writes (R113, R114, R119) -/

theorem bodyOf_err_of_clear (i : Instr) {s : State} (he : s.status.err = false) : (bodyOf i s).status.err = false := by
  rw [bodyOf_err, he, ite_self]

/-- Settles O9: the first column that applies is the error the check answers, and where none applies the body runs,
which latches nothing. -/
theorem commandsRaiseExactlyTheTabledErrors : Obligations.CommandsRaiseExactlyTheTabledErrors := fun i _ he =>
  ⟨exec_of_cfgWhen he, exec_of_capWhen he, exec_of_rangeWhen he,
    fun hc => ⟨_, exec_eq_bodyOf he hc, bodyOf_err_of_clear i he⟩⟩

/-- A command latches an error only by its failed check: no body sets ERR. -/
theorem exec_raises {i : Instr} {s t : State} (he : s.status.err = false) (ht : exec i s = .next t)
    (hte : t.status.err = true) : ∃ e, checkOf i s = some e ∧ t = s.raise e := by
  rcases exec_cases ht with ⟨-, -, herr, -⟩ | ⟨-, -, -, hraise⟩ | ⟨-, -, rfl⟩
  · exact absurd herr (by simp [he])
  · exact hraise
  · exact absurd hte (by simp [bodyOf_err_of_clear i he])

/-- Settles O10: the state after is the raise of the check's error, and a raise writes the latch alone. -/
theorem raisingCommandWritesOnlyTheLatch : Obligations.RaisingCommandWritesOnlyTheLatch := by
  intro i s t he ht hte
  obtain ⟨e, -, rfl⟩ := exec_raises he ht hte
  exact ⟨rfl, rfl, rfl⟩

/-- A check reads nothing that a raise or CLR writes. -/
theorem checkOf_release_raise (i : Instr) (e : Error) (s : State) : checkOf i (s.raise e).release = checkOf i s := by
  cases i <;> rfl

/-- Settles O11: after the raise and CLR the check sees what it saw before, and neither touches a buffer. -/
theorem retryAfterClearFailsTheSameWay : Obligations.RetryAfterClearFailsTheSameWay := by
  intro i s t u he ht hte hu
  obtain ⟨e, hck, rfl⟩ := exec_raises he ht hte
  cases hu
  exact ⟨_, exec_of_raise rfl ((checkOf_release_raise i e s).trans hck), rfl, rfl, rfl⟩

/-! ## The latch from step to step (R116, R120, R122) -/

/-- Everything an action of the host can do to the latch: nothing, unless it writes to CMD. -/
theorem hostAct_latch_cases {a : HostAction} {s t : State} (h : hostAct a s = .next t) :
    (∃ w, a = .writeReg 0 w ∧ s.writeCmd w = .next t) ∨
      (t.status = s.status ∧ t.errcode = s.errcode ∧ t.script = s.script) := by
  rcases hostAct_cases h with ⟨r, rfl⟩ | ⟨n, v, rfl, hw⟩ | ⟨k, v, -, rfl⟩ | ⟨k, v, -, rfl⟩ | ⟨x, y, p, -, -, rfl⟩
  case inr.inl =>
    rcases writeReg_cases hw with ⟨rfl, hcmd⟩ | hstore
    · exact .inl ⟨v, rfl, hcmd⟩
    · rw [hstore]; exact .inr ⟨rfl, rfl, rfl⟩
  all_goals exact .inr ⟨rfl, rfl, rfl⟩

/-- Everything a step can do to the latch: nothing, unless its action is a write to CMD. -/
theorem step_latch_cases {s t : State} (h : step s = .next t) :
    (∃ w rest, s.script = .writeReg 0 w :: rest ∧ ({ s with script := rest } : State).writeCmd w = .next t) ∨
      (t.status = s.status ∧ t.errcode = s.errcode ∧ t.script = s.script.tail) := by
  cases hs : s.script with
  | nil =>
    rw [step_nil hs] at h
    cases h
    exact .inr ⟨rfl, rfl, hs⟩
  | cons a rest =>
    rw [step_cons hs] at h
    rcases hostAct_latch_cases h with ⟨w, rfl, hcmd⟩ | hkept
    · exact .inl ⟨w, rest, rfl, hcmd⟩
    · exact .inr hkept

/-- A step whose action releases nothing keeps the latch and takes the action from the script. -/
theorem step_keeps_latch {s t : State} (he : s.status.err = true)
    (hs : ∀ w, IsReleaseWord w → HostAction.writeReg 0 w ∉ s.script) (h : step s = .next t) :
    t.status = s.status ∧ t.errcode = s.errcode ∧ t.script = s.script.tail := by
  rcases step_latch_cases h with ⟨w, rest, hscript, hcmd⟩ | hkept
  · have hw : ¬IsReleaseWord w := fun hw => hs w hw (by simp [hscript])
    rw [writeCmd_of_latched (s := { s with script := rest }) hw he] at hcmd
    cases hcmd
    exact ⟨rfl, rfl, by rw [hscript]; rfl⟩
  · exact hkept

/-- Settles O12, by induction on the number of steps: each keeps the latch, and leaves a script that holds no action
the one before did not. -/
theorem latchedErrorStaysUntilReleased : Obligations.LatchedErrorStaysUntilReleased := by
  intro n
  induction n with
  | zero =>
    intro s t _ _ h
    cases h
    exact ⟨rfl, rfl⟩
  | succ n ih =>
    intro s u he hs h
    obtain ⟨t, hst, htu⟩ := runSteps_succ_next h
    obtain ⟨hstatus, hcode, hscript⟩ := step_keeps_latch he hs hst
    have ht : ∀ w, IsReleaseWord w → HostAction.writeReg 0 w ∉ t.script :=
      fun w hw hmem => hs w hw (List.mem_of_mem_tail (hscript ▸ hmem))
    obtain ⟨hstatus', hcode'⟩ := ih t u (hstatus ▸ he) ht htu
    exact ⟨hstatus'.trans hstatus, hcode'.trans hcode⟩

theorem errcode_raise_le {e : Error} (he : e ≠ .hexConv) (s : State) : (s.raise e).errcode.toNat ≤ 4 :=
  ((latchOk_raise he s).2 rfl).2

/-- The codes a command can leave: the one it found, none, or that of an error a check answers. -/
theorem errcode_exec_le {i : Instr} {s t : State} (h : s.errcode.toNat ≤ 4) (ht : exec i s = .next t) :
    t.errcode.toNat ≤ 4 := by
  rcases exec_cases ht with ⟨-, -, -, rfl⟩ | ⟨-, -, -, e, hck, rfl⟩ | ⟨-, -, rfl⟩
  · exact h
  · exact errcode_raise_le (by rcases checkOf_error hck with rfl | rfl | rfl <;> decide) s
  · rw [bodyOf_errcode]
    split
    · decide
    · exact h

theorem errcode_writeCmd_le {w : Word} {s t : State} (h : s.errcode.toNat ≤ 4) (ht : s.writeCmd w = .next t) :
    t.errcode.toNat ≤ 4 := by
  rcases writeCmd_cases ht with ⟨i, -, hi⟩ | ⟨-, -, rfl⟩ | ⟨-, -, rfl⟩
  · exact errcode_exec_le h hi
  · exact h
  · exact errcode_raise_le (by decide) s

/-- Settles O14: a write to CMD raises none of the three codes, and no other action touches ERRCODE. -/
theorem hexConversionErrorIsUnreachable : Obligations.HexConversionErrorIsUnreachable := by
  intro s t h ht
  rcases step_latch_cases ht with ⟨w, rest, -, hcmd⟩ | ⟨-, hcode, -⟩
  · exact errcode_writeCmd_le (s := { s with script := rest }) h hcmd
  · rw [hcode]; exact h

end Sys2Proof.Machine

/-! # Proofs: reset, and runs of the host's actions (70_reset_and_hazards.md) -/

namespace Sys2Proof.Machine

/-! ## What a step does to the script and the capacities (R38, R141) -/

theorem exec_keeps_script {i : Instr} {s t : State} (h : exec i s = .next t) : t.script = s.script := by
  rcases exec_cases h with ⟨-, -, -, rfl⟩ | ⟨-, -, -, e, -, rfl⟩ | ⟨-, -, rfl⟩
  · rfl
  · exact raise_script e s
  · exact bodyOf_script i s

theorem writeCmd_keeps_config_script {w : Word} {s t : State} (h : s.writeCmd w = .next t) :
    t.config = s.config ∧ t.script = s.script := by
  rcases writeCmd_cases h with ⟨i, -, hi⟩ | ⟨-, -, rfl⟩ | ⟨-, -, rfl⟩
  · exact ⟨(commandsLeaveTheConfigurationAlone i s t hi).1, exec_keeps_script hi⟩
  · exact ⟨rfl, rfl⟩
  · exact ⟨raise_config _ s, raise_script _ s⟩

theorem writeReg_keeps_config_script {n : Nat} {v : Word} {s t : State} (h : s.writeReg n v = .next t) :
    t.config = s.config ∧ t.script = s.script := by
  rcases writeReg_cases h with ⟨-, hcmd⟩ | hstore
  · exact writeCmd_keeps_config_script hcmd
  · rw [hstore]; exact ⟨rfl, rfl⟩

theorem hostAct_keeps_config_script {a : HostAction} {s t : State} (h : hostAct a s = .next t) :
    t.config = s.config ∧ t.script = s.script := by
  rcases hostAct_cases h with ⟨r, rfl⟩ | ⟨n, v, -, hw⟩ | ⟨k, v, -, rfl⟩ | ⟨k, v, -, rfl⟩ | ⟨x, y, p, -, -, rfl⟩
  case inr.inl => exact writeReg_keeps_config_script hw
  all_goals exact ⟨rfl, rfl⟩

/-- A step whose action has a meaning completes and takes that action, and nothing else, from the script. -/
theorem step_takes_meaningful_action {s : State} {a : HostAction} {rest : List HostAction} (hs : s.script = a :: rest)
    (ha : a.WellFormed s.config) : ∃ t, step s = .next t ∧ t.config = s.config ∧ t.script = rest := by
  obtain ⟨t, ht⟩ := hostAct_completes (s := { s with script := rest }) ha
  exact ⟨t, (step_cons hs).trans ht, hostAct_keeps_config_script ht⟩

/-! ## Runs -/

/-- A run over a script of meaningful actions, the script named apart from the state for the induction along it: each
step takes one action, and the capacities it leaves give the rest their meaning still. -/
theorem runSteps_meaningful_script {l : List HostAction} {s : State} (hs : s.script = l)
    (hwf : ∀ a ∈ l, a.WellFormed s.config) :
    ∃ t, runSteps l.length s = .next t ∧ t.script = [] ∧ t.config = s.config := by
  induction l generalizing s with
  | nil => exact ⟨s, runSteps_zero s, hs, rfl⟩
  | cons a rest ih =>
    obtain ⟨ha, hrest⟩ := List.forall_mem_cons.1 hwf
    obtain ⟨t, hst, hconfig, hscript⟩ := step_takes_meaningful_action hs ha
    obtain ⟨u, htu, hdone, hkept⟩ := ih hscript (hconfig ▸ hrest)
    exact ⟨u, (runSteps_succ_of_next hst _).trans htu, hdone, hkept.trans hconfig⟩

/-- Settles O52: the run over the state's own script. -/
theorem everyMeaningfulRunEnds : Obligations.EveryMeaningfulRunEnds := fun _ => runSteps_meaningful_script rfl

/-- Settles O8, by induction on the number of steps: each is idle. -/
theorem idleBlockStaysAsItIs : Obligations.IdleBlockStaysAsItIs := by
  intro n s hs
  induction n with
  | zero => exact runSteps_zero s
  | succ n ih => exact (runSteps_succ_of_next (step_nil hs) n).trans ih

/-! ## Reset (R130, R131) -/

/-- SRST gives every register the value a reset gives it, and no register shows the capacities or the buffers. -/
theorem readReg_resetRegisters (s : State) (c : Config) (m : Memory) :
    s.resetRegisters.readReg = (State.resetWith c m).readReg := rfl

theorem toWord_clear : (⟨false, false, false⟩ : Status).toWord = 0#32 := by decide

/-- Settles O15: the table is the reset state read row by row, and SRST leaves the same rows. -/
theorem resetGivesTheTabledRegisters : Obligations.ResetGivesTheTabledRegisters := by
  refine ⟨fun c m => ?table, fun s c m => ⟨_, exec_srst s, ?srst⟩⟩
  case table => simp [List.range_succ, State.readReg, State.resetWith, toWord_clear, reg, thresh]
  case srst => rw [readReg_resetRegisters s c m]

end Sys2Proof.Machine
